-- ==== Sys2Proof/Word.lean ====
section
/-! DEFINITION. The word types of the core: bytes, 16-bit words, the immediates of an instruction and
the indices of its register file and key latch (spec/10_state.md, spec/30_encoding.md R71 to R73). -/

namespace Sys2Proof

/-- A memory byte or the contents of a general register or timer (10_state.md R20, R28, R29). -/
abbrev Byte := BitVec 8

/-- A 16-bit word: an instruction, `I`, `pc` or a return address (10_state.md R23, R24, R27). -/
abbrev Word := BitVec 16

/-- The 12-bit address immediate `nnn` (30_encoding.md R72). -/
abbrev Addr12 := BitVec 12

/-- A 4-bit nibble of a word, and the sprite row count `n` (30_encoding.md R71, R72). -/
abbrev Nibble := BitVec 4

/-- The number of a general register, `V0` to `VF` (10_state.md R20, 30_encoding.md R73). -/
abbrev Reg := Fin 16

/-- The number of a key, 0x0 to 0xF (10_state.md R34). -/
abbrev Key := Fin 16

/-- `VF`, the flag register (10_state.md R21). -/
abbrev vF : Reg := 15

/-- A byte widened with zero high bits: the core has no other widening (00_scope.md section 6). -/
def zextByte (b : Byte) : Word := b.setWidth 16

/-- The address immediate widened with zero high bits (30_encoding.md R72). -/
def zextAddr (a : Addr12) : Word := a.setWidth 16

end Sys2Proof
end

