-- ==== Sys2Proof/Machine/Flags.lean ====
section
/-! DEFINITION. Every flag the core computes, as the value written to `VF` (spec/41_alu.md R135,
spec/43_display.md R173). A flag is always 0 or 1. -/

namespace Sys2Proof.Machine

/-- A condition as a flag value. -/
def flagByte (c : Bool) : Byte := if c then 1 else 0

/-- Carry of `8xy4`: the unreduced sum exceeds 255. -/
def carryFlag (a b : Byte) : Byte := flagByte (decide (a.toNat + b.toNat > 255))

/-- NOT borrow of `minuend - subtrahend`: no borrow is needed. -/
def notBorrowFlag (minuend subtrahend : Byte) : Byte :=
  flagByte (decide (minuend.toNat ≥ subtrahend.toNat))

/-- The bit `8xy6` shifts out: bit 0. -/
def shiftedOutLow (src : Byte) : Byte := src &&& 1

/-- The bit `8xyE` shifts out: bit 7. -/
def shiftedOutHigh (src : Byte) : Byte := (src >>> 7) &&& 1

end Sys2Proof.Machine
end

