-- ==== Sys2Proof/Config.lean ====
section
/-! DEFINITION. What an implementation fixes: the parameters of spec/00_scope.md R6, the candidate font
of spec/93_implementation_defined.md G2, and the one free value of the model, the byte the random source
gives (spec/00_scope.md R9). -/

namespace Sys2Proof

/-- `SHIFT_SOURCE`: the register that `8xy6` and `8xyE` shift (41_alu.md R128, R130; OPEN, D1). -/
inductive ShiftSource where
  | vx
  | vy
deriving DecidableEq, Repr

/-- `RESERVED_WRITE`: what a data write below `LOAD_ADDR` does (20_memory.md R56, D5). -/
inductive ReservedWrite where
  | perform
  | fault
deriving DecidableEq, Repr

/-- The named parameters of 00_scope.md R6. -/
structure Params where
  /-- `MEM_SIZE` -/
  memSize : Nat
  /-- `LOAD_ADDR` -/
  loadAddr : Nat
  /-- `FONT_IMAGE`: the bytes present from address 0 upward after `NEW` and `RESET` (10_state.md R38) -/
  fontImage : List Byte
  /-- `SHIFT_SOURCE` -/
  shiftSource : ShiftSource
  /-- `RESERVED_WRITE` -/
  reservedWrite : ReservedWrite
deriving DecidableEq, Repr

/-- The reference values of 00_scope.md R6, with the document-literal empty font.
DESIGN CHOICE (logs 2 to 5), unsafe for a claim about the reset state alone. -/
def Params.reference : Params where
  memSize := 4096
  loadAddr := 0x200
  fontImage := []
  shiftSource := .vx
  reservedWrite := .perform

namespace Config

/-- Glyph height in bytes (00_scope.md R6 `GLYPH_H`). -/
def glyphHeight : Nat := 5

/-- The conventional font, a candidate value of `FONT_IMAGE` (93_implementation_defined.md G2, from
general knowledge). PRESUMED by the spec; only a parameter value a test may choose. -/
def conventionalFont : List Byte :=
  [0xF0, 0x90, 0x90, 0x90, 0xF0] ++ [0x20, 0x60, 0x20, 0x20, 0x70] ++
  [0xF0, 0x10, 0xF0, 0x80, 0xF0] ++ [0xF0, 0x10, 0xF0, 0x10, 0xF0] ++
  [0x90, 0x90, 0xF0, 0x10, 0x10] ++ [0xF0, 0x80, 0xF0, 0x10, 0xF0] ++
  [0xF0, 0x80, 0xF0, 0x90, 0xF0] ++ [0xF0, 0x10, 0x20, 0x40, 0x40] ++
  [0xF0, 0x90, 0xF0, 0x90, 0xF0] ++ [0xF0, 0x90, 0xF0, 0x10, 0xF0] ++
  [0xF0, 0x90, 0xF0, 0x90, 0x90] ++ [0xE0, 0x90, 0xE0, 0x90, 0xE0] ++
  [0xF0, 0x80, 0x80, 0x80, 0xF0] ++ [0xE0, 0x90, 0x90, 0x90, 0xE0] ++
  [0xF0, 0x80, 0xF0, 0x80, 0xF0] ++ [0xF0, 0x80, 0xF0, 0x80, 0x80]

/-- The byte the injected random source gives at its `k`-th draw: a free value, under no law
(00_scope.md R9, 41_alu.md R133, D18; log 6). It has no body, so no proof can see what it is. -/
opaque randomByte : Nat → Byte

end Config

end Sys2Proof
end

