-- ==== Sys2Proof/Syntax.lean ====
section
/-! DEFINITION. The 34 instructions of the base set, one constructor per row of spec/opcode_table.json,
in the order of spec/30_encoding.md R75. Each operand has the width the encoding gives it. -/

namespace Sys2Proof

/-- The base instruction set (00_scope.md R2, 30_encoding.md R75). -/
inductive Instr where
  /-- `00E0`: clear display -/
  | cls
  /-- `00EE`: return from subroutine -/
  | ret
  /-- `1nnn`: jump -/
  | jp (nnn : Addr12)
  /-- `2nnn`: call -/
  | call (nnn : Addr12)
  /-- `3xkk`: skip if `Vx == kk` -/
  | seByte (x : Reg) (kk : Byte)
  /-- `4xkk`: skip if `Vx != kk` -/
  | sneByte (x : Reg) (kk : Byte)
  /-- `5xy0`: skip if `Vx == Vy` -/
  | seReg (x y : Reg)
  /-- `6xkk`: `Vx = kk` -/
  | ldByte (x : Reg) (kk : Byte)
  /-- `7xkk`: `Vx = Vx + kk` -/
  | addByte (x : Reg) (kk : Byte)
  /-- `8xy0`: `Vx = Vy` -/
  | ldReg (x y : Reg)
  /-- `8xy1`: `Vx = Vx OR Vy` -/
  | orReg (x y : Reg)
  /-- `8xy2`: `Vx = Vx AND Vy` -/
  | andReg (x y : Reg)
  /-- `8xy3`: `Vx = Vx XOR Vy` -/
  | xorReg (x y : Reg)
  /-- `8xy4`: `Vx = Vx + Vy`, carry to `VF` -/
  | addReg (x y : Reg)
  /-- `8xy5`: `Vx = Vx - Vy`, NOT borrow to `VF` -/
  | subReg (x y : Reg)
  /-- `8xy6`: shift right, low bit to `VF` -/
  | shr (x y : Reg)
  /-- `8xy7`: `Vx = Vy - Vx`, NOT borrow to `VF` -/
  | subn (x y : Reg)
  /-- `8xyE`: shift left, high bit to `VF` -/
  | shl (x y : Reg)
  /-- `9xy0`: skip if `Vx != Vy` -/
  | sneReg (x y : Reg)
  /-- `Annn`: `I = nnn` -/
  | ldI (nnn : Addr12)
  /-- `Bnnn`: jump to `nnn + V0` -/
  | jpV0 (nnn : Addr12)
  /-- `Cxkk`: `Vx = random AND kk` -/
  | rnd (x : Reg) (kk : Byte)
  /-- `Dxyn`: draw sprite, collision to `VF` -/
  | drw (x y : Reg) (n : Nibble)
  /-- `Ex9E`: skip if key `Vx` pressed -/
  | skp (x : Reg)
  /-- `ExA1`: skip if key `Vx` not pressed -/
  | sknp (x : Reg)
  /-- `Fx07`: `Vx = DT` -/
  | ldVxDt (x : Reg)
  /-- `Fx0A`: wait for a key, `Vx = key` -/
  | ldVxK (x : Reg)
  /-- `Fx15`: `DT = Vx` -/
  | ldDtVx (x : Reg)
  /-- `Fx18`: `ST = Vx` -/
  | ldStVx (x : Reg)
  /-- `Fx1E`: `I = I + Vx` -/
  | addI (x : Reg)
  /-- `Fx29`: `I = Vx * 5` -/
  | ldF (x : Reg)
  /-- `Fx33`: store BCD of `Vx` -/
  | ldB (x : Reg)
  /-- `Fx55`: store `V0..Vx` -/
  | ldMemVx (x : Reg)
  /-- `Fx65`: load `V0..Vx` -/
  | ldVxMem (x : Reg)
deriving DecidableEq, Repr

/-- Why bytes do not decode (30_encoding.md R74, R77). -/
inductive DecodeError where
  /-- fewer than the two bytes of a word -/
  | truncated
  /-- `ILLEGAL`: the word matches none of the 34 patterns -/
  | illegal (w : Word)
deriving DecidableEq, Repr

end Sys2Proof
end

