-- ==== Sys2Proof/WellFormed.lean ====
section
/-! DEFINITION. Well-formedness of instructions and of the implementation parameters. An operand of an
instruction has exactly the width its field has in the word, and every value of every field is legal
(spec/30_encoding.md R73), so its type carries the whole check; the parameters have the three constraints
of spec/00_scope.md R6. -/

namespace Sys2Proof

/-- Every operand value of every instruction is legal (30_encoding.md R73): there is no check beside the
operands' types. -/
def Instr.WellFormed : Instr → Bool
  | .cls => true
  | .ret => true
  | .jp _ => true
  | .call _ => true
  | .seByte _ _ => true
  | .sneByte _ _ => true
  | .seReg _ _ => true
  | .ldByte _ _ => true
  | .addByte _ _ => true
  | .ldReg _ _ => true
  | .orReg _ _ => true
  | .andReg _ _ => true
  | .xorReg _ _ => true
  | .addReg _ _ => true
  | .subReg _ _ => true
  | .shr _ _ => true
  | .subn _ _ => true
  | .shl _ _ => true
  | .sneReg _ _ => true
  | .ldI _ => true
  | .jpV0 _ => true
  | .rnd _ _ => true
  | .drw _ _ _ => true
  | .skp _ => true
  | .sknp _ => true
  | .ldVxDt _ => true
  | .ldVxK _ => true
  | .ldDtVx _ => true
  | .ldStVx _ => true
  | .addI _ => true
  | .ldF _ => true
  | .ldB _ => true
  | .ldMemVx _ => true
  | .ldVxMem _ => true

/-- `LOAD_ADDR < MEM_SIZE <= 65536` and `len(FONT_IMAGE) <= LOAD_ADDR` (00_scope.md R6). -/
abbrev Params.WellFormed (p : Params) : Prop :=
  p.loadAddr < p.memSize ∧ p.memSize ≤ 65536 ∧ p.fontImage.length ≤ p.loadAddr

end Sys2Proof
end

