-- ==== Sys2Proof/Decode.lean ====
section
/-! DEFINITION. The decoder, total on every word and every list of bytes (spec/30_encoding.md R70 to R79),
the encoder, and the opcode table of R75 as data. -/

namespace Sys2Proof

/-! The fields of a word (30_encoding.md R71). -/

/-- `N1 = w[15:12]`, the major opcode -/
def fieldN1 (w : Word) : Nibble := w.extractLsb' 12 4
/-- `w[11:8]` as bits -/
def fieldN2 (w : Word) : Nibble := w.extractLsb' 8 4
/-- `w[7:4]` as bits -/
def fieldN3 (w : Word) : Nibble := w.extractLsb' 4 4
/-- `n = w[3:0]` -/
def fieldN (w : Word) : Nibble := w.extractLsb' 0 4
/-- `x = w[11:8]` -/
def fieldX (w : Word) : Reg := (fieldN2 w).toFin
/-- `y = w[7:4]` -/
def fieldY (w : Word) : Reg := (fieldN3 w).toFin
/-- `kk = w[7:0]` -/
def fieldKk (w : Word) : Byte := w.extractLsb' 0 8
/-- `nnn = w[11:0]` -/
def fieldNnn (w : Word) : Addr12 := w.extractLsb' 0 12

/-! Decoding by nibble pattern. Every fixed nibble is checked (30_encoding.md R77, D26). -/

/-- `00E0` and `00EE`; every other `0nnn` is illegal. -/
def decode0 (w : Word) : Option Instr :=
  match w.toNat with
  | 0x00E0 => some .cls
  | 0x00EE => some .ret
  | _ => none

/-- `8xyN`: the minor opcode is the low nibble; 8, 9, A, B, C, D and F are illegal (41_alu.md R131). -/
def decode8 (w : Word) : Option Instr :=
  match (fieldN w).toNat with
  | 0x0 => some (.ldReg (fieldX w) (fieldY w))
  | 0x1 => some (.orReg (fieldX w) (fieldY w))
  | 0x2 => some (.andReg (fieldX w) (fieldY w))
  | 0x3 => some (.xorReg (fieldX w) (fieldY w))
  | 0x4 => some (.addReg (fieldX w) (fieldY w))
  | 0x5 => some (.subReg (fieldX w) (fieldY w))
  | 0x6 => some (.shr (fieldX w) (fieldY w))
  | 0x7 => some (.subn (fieldX w) (fieldY w))
  | 0xE => some (.shl (fieldX w) (fieldY w))
  | _ => none

/-- `ExNN`: the minor opcode is the low byte. -/
def decodeE (w : Word) : Option Instr :=
  match (fieldKk w).toNat with
  | 0x9E => some (.skp (fieldX w))
  | 0xA1 => some (.sknp (fieldX w))
  | _ => none

/-- `FxNN`: the minor opcode is the low byte. -/
def decodeF (w : Word) : Option Instr :=
  match (fieldKk w).toNat with
  | 0x07 => some (.ldVxDt (fieldX w))
  | 0x0A => some (.ldVxK (fieldX w))
  | 0x15 => some (.ldDtVx (fieldX w))
  | 0x18 => some (.ldStVx (fieldX w))
  | 0x1E => some (.addI (fieldX w))
  | 0x29 => some (.ldF (fieldX w))
  | 0x33 => some (.ldB (fieldX w))
  | 0x55 => some (.ldMemVx (fieldX w))
  | 0x65 => some (.ldVxMem (fieldX w))
  | _ => none

/-- Decoding (30_encoding.md R74): the instruction a word stands for, or `none` for `ILLEGAL`. A nibble is at
most `0xF`, so the last arm is never taken. -/
def decode (w : Word) : Option Instr :=
  match (fieldN1 w).toNat with
  | 0x0 => decode0 w
  | 0x1 => some (.jp (fieldNnn w))
  | 0x2 => some (.call (fieldNnn w))
  | 0x3 => some (.seByte (fieldX w) (fieldKk w))
  | 0x4 => some (.sneByte (fieldX w) (fieldKk w))
  | 0x5 => if fieldN w = 0 then some (.seReg (fieldX w) (fieldY w)) else none
  | 0x6 => some (.ldByte (fieldX w) (fieldKk w))
  | 0x7 => some (.addByte (fieldX w) (fieldKk w))
  | 0x8 => decode8 w
  | 0x9 => if fieldN w = 0 then some (.sneReg (fieldX w) (fieldY w)) else none
  | 0xA => some (.ldI (fieldNnn w))
  | 0xB => some (.jpV0 (fieldNnn w))
  | 0xC => some (.rnd (fieldX w) (fieldKk w))
  | 0xD => some (.drw (fieldX w) (fieldY w) (fieldN w))
  | 0xE => decodeE w
  | 0xF => decodeF w
  | _ => none

/-- A word from its two bytes, high byte first (20_memory.md R52, R57). -/
def wordOfBytes (hi lo : Byte) : Word := hi ++ lo

/-- The high byte of a word, stored at the lower address (20_memory.md R52). -/
def highByte (w : Word) : Byte := w.extractLsb' 8 8
/-- The low byte of a word, stored at the higher address (20_memory.md R52). -/
def lowByte (w : Word) : Byte := w.extractLsb' 0 8

/-- Decoding of a byte sequence: one instruction and the bytes after it, or the reason there is none. -/
def decodeBytes : List Byte → Except DecodeError (Instr × List Byte)
  | hi :: lo :: rest =>
    match decode (wordOfBytes hi lo) with
    | some i => .ok (i, rest)
    | none => .error (.illegal (wordOfBytes hi lo))
  | _ => .error .truncated

/-! Encoding, from the patterns of 30_encoding.md R75. -/

/-- A register number as the four bits of its field. -/
def regBits (r : Reg) : Nibble := BitVec.ofFin r

/-- The word `N1 x y n`. -/
def wordXyn (n1 : Nibble) (x y : Reg) (n : Nibble) : Word := n1 ++ regBits x ++ regBits y ++ n

/-- The word `N1 x kk`. -/
def wordXkk (n1 : Nibble) (x : Reg) (kk : Byte) : Word := n1 ++ regBits x ++ kk

/-- The word `N1 nnn`. -/
def wordNnn (n1 : Nibble) (nnn : Addr12) : Word := n1 ++ nnn

/-- The word of an instruction (30_encoding.md R75). -/
def encode : Instr → Word
  | .cls => 0x00E0
  | .ret => 0x00EE
  | .jp nnn => wordNnn 0x1 nnn
  | .call nnn => wordNnn 0x2 nnn
  | .seByte x kk => wordXkk 0x3 x kk
  | .sneByte x kk => wordXkk 0x4 x kk
  | .seReg x y => wordXyn 0x5 x y 0x0
  | .ldByte x kk => wordXkk 0x6 x kk
  | .addByte x kk => wordXkk 0x7 x kk
  | .ldReg x y => wordXyn 0x8 x y 0x0
  | .orReg x y => wordXyn 0x8 x y 0x1
  | .andReg x y => wordXyn 0x8 x y 0x2
  | .xorReg x y => wordXyn 0x8 x y 0x3
  | .addReg x y => wordXyn 0x8 x y 0x4
  | .subReg x y => wordXyn 0x8 x y 0x5
  | .shr x y => wordXyn 0x8 x y 0x6
  | .subn x y => wordXyn 0x8 x y 0x7
  | .shl x y => wordXyn 0x8 x y 0xE
  | .sneReg x y => wordXyn 0x9 x y 0x0
  | .ldI nnn => wordNnn 0xA nnn
  | .jpV0 nnn => wordNnn 0xB nnn
  | .rnd x kk => wordXkk 0xC x kk
  | .drw x y n => wordXyn 0xD x y n
  | .skp x => wordXkk 0xE x 0x9E
  | .sknp x => wordXkk 0xE x 0xA1
  | .ldVxDt x => wordXkk 0xF x 0x07
  | .ldVxK x => wordXkk 0xF x 0x0A
  | .ldDtVx x => wordXkk 0xF x 0x15
  | .ldStVx x => wordXkk 0xF x 0x18
  | .addI x => wordXkk 0xF x 0x1E
  | .ldF x => wordXkk 0xF x 0x29
  | .ldB x => wordXkk 0xF x 0x33
  | .ldMemVx x => wordXkk 0xF x 0x55
  | .ldVxMem x => wordXkk 0xF x 0x65

/-- The two bytes of an instruction, in the order they stand in memory. -/
def encodeBytes (i : Instr) : List Byte := [highByte (encode i), lowByte (encode i)]

/-! The opcode map of 30_encoding.md R75 as data: mask, match, and the instruction read from the fields. -/

/-- One row of the opcode map. -/
structure OpcodeRow where
  mask : Word
  value : Word
  build : Word → Instr

/-- A word is a row's instruction when `w & mask = match` (30_encoding.md R75). -/
def OpcodeRow.selects (r : OpcodeRow) (w : Word) : Bool := w &&& r.mask == r.value

/-- Rows 1 to 9. -/
def opcodeTableA : List OpcodeRow :=
  [⟨0xFFFF, 0x00E0, fun _ => .cls⟩,
   ⟨0xFFFF, 0x00EE, fun _ => .ret⟩,
   ⟨0xF000, 0x1000, fun w => .jp (fieldNnn w)⟩,
   ⟨0xF000, 0x2000, fun w => .call (fieldNnn w)⟩,
   ⟨0xF000, 0x3000, fun w => .seByte (fieldX w) (fieldKk w)⟩,
   ⟨0xF000, 0x4000, fun w => .sneByte (fieldX w) (fieldKk w)⟩,
   ⟨0xF00F, 0x5000, fun w => .seReg (fieldX w) (fieldY w)⟩,
   ⟨0xF000, 0x6000, fun w => .ldByte (fieldX w) (fieldKk w)⟩,
   ⟨0xF000, 0x7000, fun w => .addByte (fieldX w) (fieldKk w)⟩]

/-- Rows 10 to 18. -/
def opcodeTableB : List OpcodeRow :=
  [⟨0xF00F, 0x8000, fun w => .ldReg (fieldX w) (fieldY w)⟩,
   ⟨0xF00F, 0x8001, fun w => .orReg (fieldX w) (fieldY w)⟩,
   ⟨0xF00F, 0x8002, fun w => .andReg (fieldX w) (fieldY w)⟩,
   ⟨0xF00F, 0x8003, fun w => .xorReg (fieldX w) (fieldY w)⟩,
   ⟨0xF00F, 0x8004, fun w => .addReg (fieldX w) (fieldY w)⟩,
   ⟨0xF00F, 0x8005, fun w => .subReg (fieldX w) (fieldY w)⟩,
   ⟨0xF00F, 0x8006, fun w => .shr (fieldX w) (fieldY w)⟩,
   ⟨0xF00F, 0x8007, fun w => .subn (fieldX w) (fieldY w)⟩,
   ⟨0xF00F, 0x800E, fun w => .shl (fieldX w) (fieldY w)⟩]

/-- Rows 19 to 25. -/
def opcodeTableC : List OpcodeRow :=
  [⟨0xF00F, 0x9000, fun w => .sneReg (fieldX w) (fieldY w)⟩,
   ⟨0xF000, 0xA000, fun w => .ldI (fieldNnn w)⟩,
   ⟨0xF000, 0xB000, fun w => .jpV0 (fieldNnn w)⟩,
   ⟨0xF000, 0xC000, fun w => .rnd (fieldX w) (fieldKk w)⟩,
   ⟨0xF000, 0xD000, fun w => .drw (fieldX w) (fieldY w) (fieldN w)⟩,
   ⟨0xF0FF, 0xE09E, fun w => .skp (fieldX w)⟩,
   ⟨0xF0FF, 0xE0A1, fun w => .sknp (fieldX w)⟩]

/-- Rows 26 to 34. -/
def opcodeTableD : List OpcodeRow :=
  [⟨0xF0FF, 0xF007, fun w => .ldVxDt (fieldX w)⟩,
   ⟨0xF0FF, 0xF00A, fun w => .ldVxK (fieldX w)⟩,
   ⟨0xF0FF, 0xF015, fun w => .ldDtVx (fieldX w)⟩,
   ⟨0xF0FF, 0xF018, fun w => .ldStVx (fieldX w)⟩,
   ⟨0xF0FF, 0xF01E, fun w => .addI (fieldX w)⟩,
   ⟨0xF0FF, 0xF029, fun w => .ldF (fieldX w)⟩,
   ⟨0xF0FF, 0xF033, fun w => .ldB (fieldX w)⟩,
   ⟨0xF0FF, 0xF055, fun w => .ldMemVx (fieldX w)⟩,
   ⟨0xF0FF, 0xF065, fun w => .ldVxMem (fieldX w)⟩]

/-- The 34 rows of 30_encoding.md R75, in the source's order. -/
def opcodeTable : List OpcodeRow := opcodeTableA ++ opcodeTableB ++ opcodeTableC ++ opcodeTableD

/-- The instruction this decoder reads from an instruction word given as a number, bit 0 the least
significant bit of its word; bits at and above `nbits` are 0. Every instruction is one 16-bit word
(30_encoding.md R70), laid out high byte first for the byte decoder. -/
def decodeTableWord (nbits w : Nat) : Option Instr :=
  let word : Word := BitVec.ofNat 16 (w % 2 ^ nbits)
  match decodeBytes [highByte word, lowByte word] with
  | .ok (i, _) => some i
  | .error _ => none

end Sys2Proof
end

