-- ==== Sys2Proof/Machine/Memory.lean ====
section
/-! DEFINITION. The memory store (spec/20_memory.md R50, R51) as a list of (address, byte) pairs in one
canonical form: addresses strictly rising, and no byte equal to what an unlisted address reads as. -/

namespace Sys2Proof.Machine

/-- The contents of the store: its listed bytes. -/
abbrev Memory := List Host.Cell

namespace Memory

/-- What an unlisted address reads as: the store is "fixed size, zero-initialized" (20_memory.md R50,
10_state.md R38). -/
def unlisted : Byte := 0

/-- The canonical form. -/
abbrev wf (m : Memory) : Prop :=
  m.Pairwise (fun c d => c.1 < d.1) ∧ ∀ c ∈ m, c.2 ≠ unlisted

/-- `MEM[a]`. -/
def read : Memory → Nat → Byte
  | [], _ => unlisted
  | (k, b) :: m, a => if a = k then b else read m a

/-- The list with a byte put at an address, in its place. -/
def insert : Memory → Nat → Byte → Memory
  | [], a, b => [(a, b)]
  | (k, c) :: m, a, b =>
    if a < k then (a, b) :: (k, c) :: m
    else if a = k then (a, b) :: m
    else (k, c) :: insert m a b

/-- The list with an address no longer listed. -/
def erase (m : Memory) (a : Nat) : Memory := m.filter (fun c => c.1 != a)

/-- `MEM[a] <- b`, keeping the canonical form. -/
def write (m : Memory) (a : Nat) (b : Byte) : Memory :=
  if b = unlisted then m.erase a else m.insert a b

/-- `writeSlice` (20_memory.md R51): consecutive bytes from an address upward. -/
def writeSlice : Memory → Nat → List Byte → Memory
  | m, _, [] => m
  | m, a, b :: bs => writeSlice (m.write a b) (a + 1) bs

/-- The store after `clear()` with `FONT_IMAGE` placed at address 0 upward (70_reset_and_hazards.md R271,
10_state.md R38). -/
def cleared (fontImage : List Byte) : Memory := writeSlice [] 0 fontImage

end Memory

end Sys2Proof.Machine
end

