-- ==== Sys2Proof/Machine/State.lean ====
section
/-! DEFINITION. The state of the machine: the eleven registers of spec/10_state.md, the memory store, and
two fields of the model's own (the parameters and the count of random draws); the fault register's types,
the outcome types, and the state after reset (spec/10_state.md R38). -/

namespace Sys2Proof.Machine

/-- The fault causes of 60_exceptions.md R240. -/
inductive FaultCause where
  /-- the word matches no pattern -/
  | illegalInstruction
  /-- `2nnn` with `SP = 16` -/
  | stackOverflow
  /-- `00EE` with `SP = 0` -/
  | stackUnderflow
  /-- a fetch or a data access outside memory, or a refused write below `LOAD_ADDR` -/
  | memOutOfBounds
  /-- `Ex9E` or `ExA1` with `Vx > 0x0F` -/
  | keyOutOfRange
deriving DecidableEq, Repr

/-- The numeric codes of 60_exceptions.md R240. -/
def FaultCause.code : FaultCause → Nat
  | .illegalInstruction => 1
  | .stackOverflow => 2
  | .stackUnderflow => 3
  | .memOutOfBounds => 4
  | .keyOutOfRange => 5

/-- What `FAULT` records (60_exceptions.md R240). -/
structure FaultRecord where
  cause : FaultCause
  /-- the `pc` of the faulting instruction or fetch -/
  fpc : Word
  /-- the faulting instruction word, `none` for a fetch fault -/
  word : Option Word
  /-- the word, the first failing address, or the value of `Vx` -/
  info : Nat
deriving DecidableEq, Repr

/-- The damage descriptor's values besides `NONE` (10_state.md R33). -/
inductive Damage where
  /-- `SPRITE x y n` -/
  | sprite (x y : Byte) (n : Nibble)
  /-- `CLEARED` -/
  | cleared
deriving DecidableEq, Repr

/-- One row of pixels, column 0 first. A pixel is 0 (`false`) or 1 (`true`) (10_state.md R30). -/
abbrev PixelRow := Vector Bool 64

/-- The framebuffer: 32 rows of 64 pixels, row 0 first (10_state.md R30). -/
abbrev Framebuffer := Vector PixelRow 32

/-- The whole state (10_state.md section 1). -/
structure State where
  /-- the parameters of 00_scope.md R6: constant, written by nothing (log 2) -/
  params : Params
  /-- `V[0..15]` (R20) -/
  v : Vector Byte 16
  /-- `I` (R23) -/
  i : Word
  /-- `pc` (R24) -/
  pc : Word
  /-- `SP`, 0 to 16 (R26) -/
  sp : Fin 17
  /-- `STACK[0..15]` (R27) -/
  stack : Vector Word 16
  /-- `DT` (R28) -/
  dt : Byte
  /-- `ST` (R29) -/
  st : Byte
  /-- `FB` (R30) -/
  fb : Framebuffer
  /-- `CHANGES` (R33) -/
  changes : Option Damage
  /-- `KEYS[0..15]` (R34) -/
  keys : Vector Bool 16
  /-- `FAULT` (R35) -/
  fault : Option FaultRecord
  /-- `MEM` (20_memory.md R50) -/
  mem : Memory
  /-- how many bytes the random source has given: the model's own counter (log 6) -/
  draws : Nat
deriving DecidableEq, Repr

/-- Reasons for which the machine stops without a next state: NONE. Every fatal condition of this core is
recorded in `FAULT` and control returns to the host (60_exceptions.md R242, R249), so it is a next state
(log 1, safe: nothing is lost, the record is in the state). -/
inductive Fault where
deriving DecidableEq, Repr

/-- Reasons for which an operation is turned away. -/
inductive Refusal where
  /-- an instruction with no meaning yet; raised by exec's arms only; safe (no arm raises it now) -/
  | notModelled (mnemonic : String)
  /-- `SET_KEY`, `UNSET_KEY` or `IS_PRESSED` with a code above 15, raised by those host operations
  (44_keyboard.md R200 to R202); safe: nothing changes -/
  | keyCodeOutOfRange (code : Nat)
  /-- `LOAD` of an image that does not fit, raised by that host operation (70_reset_and_hazards.md R274);
  safe: no byte is written -/
  | imageDoesNotFit (length : Nat)
deriving DecidableEq, Repr

/-- Every piece of state at its value after `NEW` and `RESET` (10_state.md R38), for given parameters and a
given position in the random source, which reset does not touch (70_reset_and_hazards.md R272). -/
def State.powerOn (p : Params) (draws : Nat) : State where
  params := p
  v := Vector.replicate 16 0
  i := 0
  pc := BitVec.ofNat 16 p.loadAddr
  sp := 0
  stack := Vector.replicate 16 0
  dt := 0
  st := 0
  fb := Vector.replicate 32 (Vector.replicate 64 false)
  changes := none
  keys := Vector.replicate 16 false
  fault := none
  mem := Memory.cleared p.fontImage
  draws := draws

/-- The machine right after reset, with the reference parameters (00_scope.md R6; logs 2 to 5) and no byte
drawn yet (log 6). -/
def State.reset : State := State.powerOn Params.reference 0

end Sys2Proof.Machine
end

