-- ==== Sys2Proof/Machine/Ops.lean ====
section
/-! DEFINITION. The named operations over registers, the stack, memory, the display, the key latch, the
timers and the random source, and taking a fault. -/

namespace Sys2Proof.Machine

/-- The outcome type of every meaning. -/
abbrev StepOutcome := Host.Outcome State Fault Refusal

namespace State

/-! Registers (10_state.md R20, R24). -/

/-- `V[r]` -/
def getV (s : State) (r : Reg) : Byte := s.v[r]

/-- `V[r] <- b` -/
def setV (s : State) (r : Reg) (b : Byte) : State := { s with v := s.v.set r.val b r.isLt }

/-- `V[r] <- b` for each pair, in order. -/
def setVs (s : State) : List (Reg × Byte) → State
  | [] => s
  | (r, b) :: rest => (s.setV r b).setVs rest

/-- `pc <- (pc + k) mod 65536` (10_state.md R24). -/
def advance (s : State) (k : Word) : State := { s with pc := s.pc + k }

/-- `pc <- target` -/
def goto (s : State) (target : Word) : State := { s with pc := target }

/-- `I <- w` -/
def setI (s : State) (w : Word) : State := { s with i := w }

/-- `DT <- b` -/
def setDt (s : State) (b : Byte) : State := { s with dt := b }

/-- `ST <- b` -/
def setSt (s : State) (b : Byte) : State := { s with st := b }

/-- `CHANGES <- c` -/
def setChanges (s : State) (c : Option Damage) : State := { s with changes := c }

/-- `FB <- f` -/
def setFb (s : State) (f : Framebuffer) : State := { s with fb := f }

/-- `MEM <- m` -/
def setMem (s : State) (m : Memory) : State := { s with mem := m }

/-- The skip of a conditional instruction: 4 when the condition holds and 2 otherwise
(30_encoding.md R87). -/
def skipIf (s : State) (c : Bool) : State := if c then s.advance 4 else s.advance 2

/-! Taking a fault, and the only way out of one. -/

/-- `raise Fault(cause, info)` (60_exceptions.md R242): the record is written with the current `pc`, and
nothing else changes (R243, R249). -/
def raise (s : State) (cause : FaultCause) (word : Option Word) (info : Nat) : State :=
  { s with fault := some ⟨cause, s.pc, word, info⟩ }

/-- `NEW` and `RESET` (70_reset_and_hazards.md R270, R271): the only exit from a faulted state
(60_exceptions.md R251); the parameters and the random source stay (R272). -/
def restart (s : State) : State := powerOn s.params s.draws

/-! Memory (20_memory.md R53 to R57). Addresses are naturals, never reduced. -/

/-- `MemRead(a, 1)`, or the failing address. -/
def memRead (s : State) (a : Nat) : Except Nat Byte :=
  if a < s.params.memSize then .ok (s.mem.read a) else .error a

/-- A data write to `a` is performed: it is in memory and not refused by `RESERVED_WRITE`
(20_memory.md R54, R56). -/
def writable (s : State) (a : Nat) : Bool :=
  decide (a < s.params.memSize) &&
    (decide (s.params.loadAddr ≤ a) || decide (s.params.reservedWrite = .perform))

/-- `MemWrite(a, 1, b)`, or the failing address. -/
def memWrite (s : State) (a : Nat) (b : Byte) : Except Nat State :=
  if s.writable a then .ok (s.setMem (s.mem.write a b)) else .error a

/-- `n` byte reads from `a` upward, or the lowest failing address (60_exceptions.md R248). -/
def memReads (s : State) (a : Nat) : Nat → Except Nat (List Byte)
  | 0 => .ok []
  | n + 1 =>
    match s.memRead a with
    | .error e => .error e
    | .ok b =>
      match s.memReads (a + 1) n with
      | .error e => .error e
      | .ok bs => .ok (b :: bs)

/-- Byte writes from `a` upward, or the lowest failing address (60_exceptions.md R248). The state of a
failed write is dropped by the caller, so no byte of it lands (20_memory.md R55). -/
def memWrites (s : State) (a : Nat) : List Byte → Except Nat State
  | [] => .ok s
  | b :: bs =>
    match s.memWrite a b with
    | .error e => .error e
    | .ok s' => s'.memWrites (a + 1) bs

/-- `Fetch()` (20_memory.md R57): the big-endian word at `pc`, or the failing address. -/
def fetch (s : State) : Except Nat Word :=
  match s.memRead s.pc.toNat with
  | .error e => .error e
  | .ok hi =>
    match s.memRead (s.pc.toNat + 1) with
    | .error e => .error e
    | .ok lo => .ok (wordOfBytes hi lo)

/-- The state with a word stored where the next fetch reads it. The fetch needs no recorded fault and a
`pc` whose two bytes are in memory; where these do not hold the fault is cleared and `pc` is put at
`LOAD_ADDR` (log 8). -/
def storeFetchWord (s : State) (w : Word) : State :=
  let pc := if s.pc.toNat + 1 < s.params.memSize then s.pc else BitVec.ofNat 16 s.params.loadAddr
  { s with
    pc := pc
    fault := none
    mem := s.mem.writeSlice pc.toNat [highByte w, lowByte w] }

/-! The call stack (10_state.md R26, R27). -/

/-- Push: `STACK[SP] <- w; SP <- SP + 1`; `none` when `SP = 16`. -/
def push (s : State) (w : Word) : Option State :=
  if h : s.sp.val < 16 then
    some { s with stack := s.stack.set s.sp.val w h, sp := ⟨s.sp.val + 1, by omega⟩ }
  else none

/-- Pop: `SP <- SP - 1`, then the entry at `SP`, which keeps its value; `none` when `SP = 0`. -/
def pop (s : State) : Option (State × Word) :=
  if h : 0 < s.sp.val then
    some ({ s with sp := ⟨s.sp.val - 1, by omega⟩ },
      s.stack[s.sp.val - 1]'(by have := s.sp.isLt; omega))
  else none

/-! The key latch (44_keyboard.md R200 to R203). -/

/-- `KEYS[k]` -/
def keyHeld (s : State) (k : Key) : Bool := s.keys[k]

/-- `KEYS[k] <- held` -/
def setKeyState (s : State) (k : Key) (held : Bool) : State :=
  { s with keys := s.keys.set k.val held k.isLt }

/-- `GetPressed()`: the lowest held key, or none. -/
def getPressed (s : State) : Option Key := (List.finRange 16).find? s.keyHeld

/-! The timers and the random source. -/

/-- `UpdateTimers()` (45_timers.md R224): both counters down by 1, saturating at 0. -/
def updateTimers (s : State) : State :=
  { s with
    dt := if s.dt = 0 then s.dt else s.dt - 1
    st := if s.st = 0 then s.st else s.st - 1 }

/-- The next byte of the random source: a free value (41_alu.md R133; log 6). -/
def nextRandom (s : State) : Byte := Config.randomByte s.draws

/-- The state after one byte is taken from the random source. -/
def drawn (s : State) : State := { s with draws := s.draws + 1 }

end State

/-! The framebuffer and the sprite engine (43_display.md R171). -/

namespace Framebuffer

/-- `FB[r][c]` -/
def get (fb : Framebuffer) (r : Fin 32) (c : Fin 64) : Bool := fb[r][c]

/-- `FB[r][c] <- p` -/
def put (fb : Framebuffer) (r : Fin 32) (c : Fin 64) (p : Bool) : Framebuffer :=
  fb.set r.val (fb[r].set c.val p c.isLt) r.isLt

/-- Every pixel 0 (the display's `clear()`). -/
def blank : Framebuffer := Vector.replicate 32 (Vector.replicate 64 false)

end Framebuffer

/-- The row a sprite row lands in: `(yv + row) mod 32` (43_display.md R174). -/
def spriteRow (yv : Byte) (row : Nat) : Fin 32 := Fin.ofNat 32 (yv.toNat + row)

/-- The column a sprite bit lands in: `(xv + bit) mod 64` (43_display.md R174). -/
def spriteCol (xv : Byte) (bit : Nat) : Fin 64 := Fin.ofNat 64 (xv.toNat + bit)

/-- Bit `bit` of a sprite row, most significant first. -/
def spriteBit (b : Byte) (bit : Nat) : Bool := b.getLsbD (7 - bit)

/-- One pixel of a draw: XOR into the framebuffer, and the collision so far. -/
def drawPixel (acc : Framebuffer × Bool) (r : Fin 32) (c : Fin 64) (newBit : Bool) : Framebuffer × Bool :=
  let old := acc.1.get r c
  (acc.1.put r c (old ^^ newBit), acc.2 || (old && newBit))

/-- One row of a draw: its eight bits, left to right. -/
def drawRow (xv yv : Byte) (row : Nat) (b : Byte) (acc : Framebuffer × Bool) : Framebuffer × Bool :=
  (List.range 8).foldl
    (fun acc bit => drawPixel acc (spriteRow yv row) (spriteCol xv bit) (spriteBit b bit)) acc

/-- The rows of a draw from row number `row` on. -/
def drawRows (xv yv : Byte) : Nat → List Byte → Framebuffer × Bool → Framebuffer × Bool
  | _, [], acc => acc
  | row, b :: bs, acc => drawRows xv yv (row + 1) bs (drawRow xv yv row b acc)

/-- `LoadSprite(xv, yv, bytes)` (43_display.md R171): the composited display with its damage recorded, and
the collision. -/
def State.loadSprite (s : State) (xv yv : Byte) (bytes : List Byte) : State × Bool :=
  let d := drawRows xv yv 0 bytes (s.fb, false)
  ((s.setFb d.1).setChanges (some (.sprite xv yv (BitVec.ofNat 4 bytes.length))), d.2)

/-- A fault taken by an instruction: the record holds the instruction's own word (60_exceptions.md R240),
which is its encoding (log 9), and the state is otherwise the one before the instruction (R243). -/
def faultIn (i : Instr) (cause : FaultCause) (info : Nat) (s : State) : StepOutcome :=
  .next (s.raise cause (some (encode i)) info)

end Sys2Proof.Machine
end

