-- ==== Sys2Proof/Machine/Operands.lean ====
section
/-! DEFINITION. The operand forms: registers and immediates come straight from the instruction's fields;
what is computed here is the shift operand, the register range `V0..Vx` and the effective address
(spec/41_alu.md R128, spec/42_index_memory.md). -/

namespace Sys2Proof.Machine

/-- The register `8xy6` and `8xyE` shift, by `SHIFT_SOURCE` (41_alu.md R128, R130). -/
def shiftOperand (s : State) (x y : Reg) : Byte :=
  match s.params.shiftSource with
  | .vx => s.getV x
  | .vy => s.getV y

/-- The registers `V0` to `Vx`, inclusive (30_encoding.md R73). -/
def regsUpTo (x : Reg) : List Reg := (List.finRange 16).take (x.val + 1)

/-- The effective address of a data access: the natural `I`, not reduced, from which byte `i` lies at
`I + i` (42_index_memory.md). -/
def dataAddress (s : State) : Nat := s.i.toNat

/-- The three decimal digits of a byte, hundreds first (42_index_memory.md R153). -/
def bcdDigits (b : Byte) : List Byte :=
  [BitVec.ofNat 8 (b.toNat / 100), BitVec.ofNat 8 (b.toNat / 10 % 10), BitVec.ofNat 8 (b.toNat % 10)]

end Sys2Proof.Machine
end

