-- ==== Sys2Proof/Machine/Alu.lean ====
section
/-! DEFINITION. Register loads and the arithmetic, logic and shift unit (spec/41_alu.md). Operands are read
before anything is written (spec/30_encoding.md R84). -/

namespace Sys2Proof.Machine

/-- A result without a flag: `V[x] <- b; pc <- pc + 2`. -/
def writeResult (s : State) (x : Reg) (b : Byte) : State := (s.setV x b).advance 2

/-- A result with a flag: the flag is written last, so it is what `VF` holds even for `x = 0xF`
(10_state.md R22). -/
def writeFlagged (s : State) (x : Reg) (b flag : Byte) : State :=
  ((s.setV x b).setV vF flag).advance 2

/-- `6xkk` (R120). -/
def execLdByte (x : Reg) (kk : Byte) (s : State) : StepOutcome := .next (writeResult s x kk)

/-- `7xkk` (R121). -/
def execAddByte (x : Reg) (kk : Byte) (s : State) : StepOutcome :=
  .next (writeResult s x (s.getV x + kk))

/-- `8xy0` (R122). -/
def execLdReg (x y : Reg) (s : State) : StepOutcome := .next (writeResult s x (s.getV y))

/-- `8xy1` (R123). -/
def execOrReg (x y : Reg) (s : State) : StepOutcome :=
  .next (writeResult s x (s.getV x ||| s.getV y))

/-- `8xy2` (R124). -/
def execAndReg (x y : Reg) (s : State) : StepOutcome :=
  .next (writeResult s x (s.getV x &&& s.getV y))

/-- `8xy3` (R125). -/
def execXorReg (x y : Reg) (s : State) : StepOutcome :=
  .next (writeResult s x (s.getV x ^^^ s.getV y))

/-- `8xy4` (R126). -/
def execAddReg (x y : Reg) (s : State) : StepOutcome :=
  .next (writeFlagged s x (s.getV x + s.getV y) (carryFlag (s.getV x) (s.getV y)))

/-- `8xy5` (R127). -/
def execSubReg (x y : Reg) (s : State) : StepOutcome :=
  .next (writeFlagged s x (s.getV x - s.getV y) (notBorrowFlag (s.getV x) (s.getV y)))

/-- `8xy6` (R128). -/
def execShr (x y : Reg) (s : State) : StepOutcome :=
  .next (writeFlagged s x (shiftOperand s x y >>> 1) (shiftedOutLow (shiftOperand s x y)))

/-- `8xy7` (R129). -/
def execSubn (x y : Reg) (s : State) : StepOutcome :=
  .next (writeFlagged s x (s.getV y - s.getV x) (notBorrowFlag (s.getV y) (s.getV x)))

/-- `8xyE` (R130). -/
def execShl (x y : Reg) (s : State) : StepOutcome :=
  .next (writeFlagged s x (shiftOperand s x y <<< 1) (shiftedOutHigh (shiftOperand s x y)))

/-- `Cxkk` for a given byte `r` of the random source (R133). -/
def rndWith (r : Byte) (x : Reg) (kk : Byte) (s : State) : State := writeResult s.drawn x (r &&& kk)

/-- `Cxkk` (R133): one byte is taken from the random source at every execution, also when `kk = 0`. -/
def execRnd (x : Reg) (kk : Byte) (s : State) : StepOutcome := .next (rndWith s.nextRandom x kk s)

end Sys2Proof.Machine
end

