-- ==== Sys2Proof/Machine/Control.lean ====
section
/-! DEFINITION. Control transfer and the register-conditional skips (spec/40_control.md). -/

namespace Sys2Proof.Machine

/-- `00EE` (R100): the popped address is already the one after the call. -/
def execRet (s : State) : StepOutcome :=
  match s.pop with
  | none => faultIn .ret .stackUnderflow (encode .ret).toNat s
  | some (t, target) => .next (t.goto target)

/-- `1nnn` (R101). -/
def execJp (nnn : Addr12) (s : State) : StepOutcome := .next (s.goto (zextAddr nnn))

/-- `2nnn` (R102). -/
def execCall (nnn : Addr12) (s : State) : StepOutcome :=
  match s.push (s.pc + 2) with
  | none => faultIn (.call nnn) .stackOverflow (encode (.call nnn)).toNat s
  | some t => .next (t.goto (zextAddr nnn))

/-- `3xkk` (R103). -/
def execSeByte (x : Reg) (kk : Byte) (s : State) : StepOutcome :=
  .next (s.skipIf (decide (s.getV x = kk)))

/-- `4xkk` (R104). -/
def execSneByte (x : Reg) (kk : Byte) (s : State) : StepOutcome :=
  .next (s.skipIf (decide (s.getV x ≠ kk)))

/-- `5xy0` (R105). -/
def execSeReg (x y : Reg) (s : State) : StepOutcome :=
  .next (s.skipIf (decide (s.getV x = s.getV y)))

/-- `9xy0` (R106). -/
def execSneReg (x y : Reg) (s : State) : StepOutcome :=
  .next (s.skipIf (decide (s.getV x ≠ s.getV y)))

/-- `Bnnn` (R107): always `V0`; the sum is not reduced to 12 bits. -/
def execJpV0 (nnn : Addr12) (s : State) : StepOutcome :=
  .next (s.goto (zextAddr nnn + zextByte (s.getV 0)))

end Sys2Proof.Machine
end

