-- ==== Sys2Proof/Machine/Display.lean ====
section
/-! DEFINITION. The display instructions (spec/43_display.md). -/

namespace Sys2Proof.Machine

/-- `00E0` (R170). -/
def execCls (s : State) : StepOutcome :=
  .next (((s.setFb Framebuffer.blank).setChanges (some .cleared)).advance 2)

/-- `Dxyn` (R172): the coordinates are read before `VF` is written; the sprite bytes are read before any
pixel, so a fault leaves the display unchanged. -/
def execDrw (x y : Reg) (n : Nibble) (s : State) : StepOutcome :=
  match s.memReads (dataAddress s) n.toNat with
  | .error a => faultIn (.drw x y n) .memOutOfBounds a s
  | .ok bytes =>
    let d := s.loadSprite (s.getV x) (s.getV y) bytes
    .next ((d.1.setV vF (flagByte d.2)).advance 2)

end Sys2Proof.Machine
end

