-- ==== Sys2Proof/Machine/IndexMemory.lean ====
section
/-! DEFINITION. The index register and the memory transfers (spec/42_index_memory.md). `I` is never changed
by a transfer (R156). -/

namespace Sys2Proof.Machine

/-- `Annn` (R150). -/
def execLdI (nnn : Addr12) (s : State) : StepOutcome := .next ((s.setI (zextAddr nnn)).advance 2)

/-- `Fx1E` (R151): wraps at 16 bits. -/
def execAddI (x : Reg) (s : State) : StepOutcome :=
  .next ((s.setI (s.i + zextByte (s.getV x))).advance 2)

/-- `Fx29` (R152): the whole byte of `Vx`, times the glyph height. -/
def execLdF (x : Reg) (s : State) : StepOutcome :=
  .next ((s.setI (BitVec.ofNat 16 ((s.getV x).toNat * Config.glyphHeight))).advance 2)

/-- Consecutive bytes stored from `I` upward by instruction `i`: all of them, or a fault and none
(20_memory.md R55). -/
def storeFrom (i : Instr) (bytes : List Byte) (s : State) : StepOutcome :=
  match s.memWrites (dataAddress s) bytes with
  | .error a => faultIn i .memOutOfBounds a s
  | .ok t => .next (t.advance 2)

/-- `Fx33` (R153). -/
def execLdB (x : Reg) (s : State) : StepOutcome := storeFrom (.ldB x) (bcdDigits (s.getV x)) s

/-- `Fx55` (R154). -/
def execLdMemVx (x : Reg) (s : State) : StepOutcome :=
  storeFrom (.ldMemVx x) ((regsUpTo x).map s.getV) s

/-- `Fx65` (R155): all the registers, or a fault and none. -/
def execLdVxMem (x : Reg) (s : State) : StepOutcome :=
  match s.memReads (dataAddress s) (x.val + 1) with
  | .error a => faultIn (.ldVxMem x) .memOutOfBounds a s
  | .ok bytes => .next ((s.setVs ((regsUpTo x).zip bytes)).advance 2)

end Sys2Proof.Machine
end

