-- ==== Sys2Proof/Machine/Keyboard.lean ====
section
/-! DEFINITION. The key skips and wait-for-key (spec/44_keyboard.md). -/

namespace Sys2Proof.Machine

/-- The key a register names: its whole value, which must be at most 15 (R204). -/
def keyOf (b : Byte) : Option Key := if h : b.toNat < 16 then some ⟨b.toNat, h⟩ else none

/-- `Ex9E` (R204). -/
def execSkp (x : Reg) (s : State) : StepOutcome :=
  match keyOf (s.getV x) with
  | none => faultIn (.skp x) .keyOutOfRange (s.getV x).toNat s
  | some k => .next (s.skipIf (s.keyHeld k))

/-- `ExA1` (R205). -/
def execSknp (x : Reg) (s : State) : StepOutcome :=
  match keyOf (s.getV x) with
  | none => faultIn (.sknp x) .keyOutOfRange (s.getV x).toNat s
  | some k => .next (s.skipIf (!s.keyHeld k))

/-- `Fx0A` (R206): the lowest held key, or no change at all while none is held (R207). -/
def execLdVxK (x : Reg) (s : State) : StepOutcome :=
  match s.getPressed with
  | some k => .next ((s.setV x (BitVec.ofNat 8 k.val)).advance 2)
  | none => .next s

end Sys2Proof.Machine
end

