-- ==== Sys2Proof/Machine/Timers.lean ====
section
/-! DEFINITION. The timer instructions (spec/45_timers.md). -/

namespace Sys2Proof.Machine

/-- `Fx07` (R220). -/
def execLdVxDt (x : Reg) (s : State) : StepOutcome := .next ((s.setV x s.dt).advance 2)

/-- `Fx15` (R221). -/
def execLdDtVx (x : Reg) (s : State) : StepOutcome := .next ((s.setDt (s.getV x)).advance 2)

/-- `Fx18` (R222). -/
def execLdStVx (x : Reg) (s : State) : StepOutcome := .next ((s.setSt (s.getV x)).advance 2)

end Sys2Proof.Machine
end

