-- ==== Sys2Proof/Machine/Cycle.lean ====
section
/-! DEFINITION. The instruction cycle: `EXECUTE` and `TICK` (spec/30_encoding.md R85, R86). -/

namespace Sys2Proof.Machine

/-- `EXECUTE(w)` (R85): a faulted core does nothing; an illegal word is a fault; any other word runs at the
current `pc`. `CHANGES` is not cleared. -/
def execute (w : Word) (s : State) : StepOutcome :=
  if s.fault.isSome then .next s
  else
    match decode w with
    | none => .next (s.raise .illegalInstruction (some w) w.toNat)
    | some i => exec i s

/-- `TICK` (R86): a faulted core does nothing; otherwise `CHANGES` is cleared, for good, and the word at
`pc` is fetched and executed, or its fetch faults (60_exceptions.md R246). -/
def tick (s : State) : StepOutcome :=
  if s.fault.isSome then .next s
  else
    match (s.setChanges none).fetch with
    | .error a => .next ((s.setChanges none).raise .memOutOfBounds none a)
    | .ok w => execute w (s.setChanges none)

end Sys2Proof.Machine
end

