-- ==== Sys2Proof/Machine/Step.lean ====
section
/-! DEFINITION. One step of the machine is one `TICK` (spec/30_encoding.md R86: "the unit of CPU work"). -/

namespace Sys2Proof.Machine

/-- One step: `TICK`. -/
def step (s : State) : Host.Outcome State Fault Refusal := tick s

/-- The state with the instruction word `w` (bits at and above `nbits` 0) stored where the next step
fetches (log 8). -/
def State.withFetchWord (s : State) (nbits w : Nat) : State :=
  s.storeFetchWord (BitVec.ofNat 16 (w % 2 ^ nbits))

end Sys2Proof.Machine
end

