-- ==== Sys2Proof/Machine/Operations.lean ====
section
/-! DEFINITION. The host's operations (spec/00_scope.md R7): each is applied atomically to the whole state
and returns a response. The host issues them in any order (R8). -/

namespace Sys2Proof.Machine

/-- The operations of 00_scope.md R7. A key code is any natural, as the host gives it. -/
inductive Operation where
  /-- `NEW` -/
  | new
  /-- `RESET` -/
  | reset
  /-- `LOAD(bytes)` -/
  | load (bytes : List Byte)
  /-- `TICK` -/
  | tick
  /-- `FETCH` -/
  | fetch
  /-- `EXECUTE(word)` -/
  | execute (w : Word)
  /-- `UPDATE_TIMERS` -/
  | updateTimers
  /-- `GET_BUFFER` -/
  | getBuffer
  /-- `GET_CHANGES` -/
  | getChanges
  /-- `CLEAR_CHANGES` -/
  | clearChanges
  /-- `SET_KEY(code)` -/
  | setKey (code : Nat)
  /-- `UNSET_KEY(code)` -/
  | unsetKey (code : Nat)
  /-- `IS_PRESSED(code)` -/
  | isPressed (code : Nat)
  /-- `GET_PRESSED` -/
  | getPressed
  /-- a read of `FAULT` -/
  | readFault
deriving DecidableEq, Repr

/-- What an operation returns to the host. -/
inductive Response where
  /-- done, nothing returned -/
  | done
  /-- refused, no state changed -/
  | refused (r : Refusal)
  /-- the word at `pc`, or none when it is out of bounds -/
  | word (w : Option Word)
  /-- the framebuffer, row-major -/
  | buffer (pixels : List Nat)
  /-- the damage descriptor -/
  | changes (c : Option Damage)
  /-- whether a key is held -/
  | pressed (held : Bool)
  /-- the lowest held key -/
  | key (k : Option Key)
  /-- the fault record -/
  | fault (f : Option FaultRecord)
deriving DecidableEq, Repr

namespace State

/-- `LOAD(bytes)` (70_reset_and_hazards.md R273, R274): the image at `LOAD_ADDR`, or a refusal. -/
def load (s : State) (bytes : List Byte) : State × Response :=
  if s.params.loadAddr + bytes.length > s.params.memSize then
    (s, .refused (.imageDoesNotFit bytes.length))
  else (s.setMem (s.mem.writeSlice s.params.loadAddr bytes), .done)

/-- `FETCH` as an inspection (20_memory.md R57): no effect, no word when out of bounds. -/
def inspectFetch (s : State) : Option Word :=
  match s.fetch with
  | .ok w => some w
  | .error _ => none

/-- `GET_BUFFER` (43_display.md R178): 2048 entries of 0 or 1, entry `r * 64 + c` the pixel `FB[r][c]`. -/
def buffer (s : State) : List Nat :=
  (s.fb.toList.map (fun row => row.toList.map Bool.toNat)).flatten

/-- `SET_KEY(code)` and `UNSET_KEY(code)` (44_keyboard.md R200, R201). -/
def setKeyCode (s : State) (code : Nat) (held : Bool) : State × Response :=
  if h : code < 16 then (s.setKeyState ⟨code, h⟩ held, .done)
  else (s, .refused (.keyCodeOutOfRange code))

/-- `IS_PRESSED(code)` (44_keyboard.md R202). -/
def isPressed (s : State) (code : Nat) : Response :=
  if h : code < 16 then .pressed (s.keyHeld ⟨code, h⟩) else .refused (.keyCodeOutOfRange code)

/-- The state and response of an operation that runs the core. -/
def ofOutcome (s : State) : StepOutcome → State × Response
  | .next t => (t, .done)
  | .refused r => (s, .refused r)

end State

/-- The effect and the response of each operation (00_scope.md R7). A faulted core still obeys every
operation but `TICK` and `EXECUTE` (60_exceptions.md R244). -/
def operate (op : Operation) (s : State) : State × Response :=
  match op with
  | .new => (s.restart, .done)
  | .reset => (s.restart, .done)
  | .load bytes => s.load bytes
  | .tick => s.ofOutcome (step s)
  | .fetch => (s, .word s.inspectFetch)
  | .execute w => s.ofOutcome (execute w s)
  | .updateTimers => (s.updateTimers, .done)
  | .getBuffer => (s, .buffer s.buffer)
  | .getChanges => (s, .changes s.changes)
  | .clearChanges => (s.setChanges none, .done)
  | .setKey code => s.setKeyCode code true
  | .unsetKey code => s.setKeyCode code false
  | .isPressed code => (s, s.isPressed code)
  | .getPressed => (s, .key s.getPressed)
  | .readFault => (s, .fault s.fault)

/-- A run: the host's operations one after another (00_scope.md R8). -/
def runOperations (s : State) : List Operation → State
  | [] => s
  | op :: ops => runOperations (operate op s).1 ops

end Sys2Proof.Machine
end

