-- ==== Sys2Proof/Safety.lean ====
section
/-! DEFINITION. What the statements call a sound state, a safe run, and "unchanged". -/

namespace Sys2Proof.Machine

/-- The invariant of the machine: the parameters meet their constraints (00_scope.md R6), the memory is in
its canonical form, and it lists no address outside the store (20_memory.md R50). -/
structure State.Inv (s : State) : Prop where
  params_wf : s.params.WellFormed
  mem_wf : s.mem.wf
  mem_bounded : ∀ c ∈ s.mem, c.1 < s.params.memSize

/-- A state reached by some list of host operations from a given one. -/
def ReachedFrom (s t : State) : Prop := ∃ ops : List Operation, t = runOperations s ops

/-- A safe run: no state on the way has recorded a fault (60_exceptions.md R244: "a run that reaches it
refutes any claim that the program runs correctly"). -/
def SafeRun (s : State) : List Operation → Prop
  | [] => s.fault = none
  | op :: ops => s.fault = none ∧ SafeRun (operate op s).1 ops

/-- The pieces of state besides `V` and `pc`. -/
inductive Piece where
  | params | i | sp | stack | dt | st | fb | changes | keys | fault | mem | draws
deriving DecidableEq, Repr

/-- Two states agree on a piece; on memory, by the read of every byte. -/
def State.AgreesOn (s t : State) : Piece → Prop
  | .params => t.params = s.params
  | .i => t.i = s.i
  | .sp => t.sp = s.sp
  | .stack => t.stack = s.stack
  | .dt => t.dt = s.dt
  | .st => t.st = s.st
  | .fb => t.fb = s.fb
  | .changes => t.changes = s.changes
  | .keys => t.keys = s.keys
  | .fault => t.fault = s.fault
  | .mem => ∀ a, t.mem.read a = s.mem.read a
  | .draws => t.draws = s.draws

/-- Nothing changed from `s` to `t` but `pc`, the general registers listed and the pieces listed. -/
def Frame (s t : State) (regs : List Reg) (pieces : List Piece) : Prop :=
  (∀ r, r ∉ regs → t.getV r = s.getV r) ∧ ∀ p, p ∉ pieces → s.AgreesOn t p

/-- Instruction `i` faults in state `s`: `FAULT` records the cause, the `pc`, the instruction's word and the
information, and nothing else changes (60_exceptions.md R240, R242, R243). -/
def FaultsWith (i : Instr) (s : State) (cause : FaultCause) (info : Nat) : Prop :=
  exec i s = .next { s with
    fault := some { cause := cause, fpc := s.pc, word := some (encode i), info := info } }

/-- A data write to `a` is performed: `a` is in memory, and not below `LOAD_ADDR` when `RESERVED_WRITE` is
`FAULT` (20_memory.md R54, R56). -/
def MayWrite (s : State) (a : Nat) : Prop :=
  a < s.params.memSize ∧ (s.params.reservedWrite = .perform ∨ s.params.loadAddr ≤ a)

/-- The conditions under which an instruction faults (60_exceptions.md R240; every other condition is
defined and never faults, R247). -/
def FaultCondition (s : State) : Instr → Prop
  | .call _ => s.sp.val = 16
  | .ret => s.sp.val = 0
  | .drw _ _ n => 0 < n.toNat ∧ s.params.memSize < dataAddress s + n.toNat
  | .skp x => 15 < (s.getV x).toNat
  | .sknp x => 15 < (s.getV x).toNat
  | .ldB _ => ∃ k, k < 3 ∧ ¬MayWrite s (dataAddress s + k)
  | .ldMemVx x => ∃ k, k ≤ x.val ∧ ¬MayWrite s (dataAddress s + k)
  | .ldVxMem x => s.params.memSize ≤ dataAddress s + x.val
  | _ => False

/-- The general registers an instruction may write (10_state.md R20, R21). -/
def destRegs : Instr → List Reg
  | .ldByte x _ | .addByte x _ | .rnd x _ | .ldVxDt x | .ldVxK x => [x]
  | .ldReg x _ | .orReg x _ | .andReg x _ | .xorReg x _ => [x]
  | .addReg x _ | .subReg x _ | .shr x _ | .subn x _ | .shl x _ => [x, vF]
  | .drw _ _ _ => [vF]
  | .ldVxMem x => regsUpTo x
  | _ => []

/-- The pieces of state besides `V` and `pc` an instruction may write (10_state.md R23 to R35). -/
def destPieces : Instr → List Piece
  | .cls => [.fb, .changes]
  | .ret => [.sp, .fault]
  | .call _ => [.sp, .stack, .fault]
  | .ldI _ | .addI _ | .ldF _ => [.i]
  | .rnd _ _ => [.draws]
  | .drw _ _ _ => [.fb, .changes, .fault]
  | .skp _ | .sknp _ | .ldVxMem _ => [.fault]
  | .ldDtVx _ => [.dt]
  | .ldStVx _ => [.st]
  | .ldB _ | .ldMemVx _ => [.mem, .fault]
  | _ => []

/-- Instruction `i`, executed in `s`, may store to the byte at `a`: `Fx33` to the three bytes from `I`, `Fx55` to
the bytes from `I` to `I + x` (42_index_memory.md R153, R154); no other instruction stores. -/
def StoresTo (s : State) (i : Instr) (a : Nat) : Prop :=
  match i with
  | .ldB _ => dataAddress s ≤ a ∧ a ≤ dataAddress s + 2
  | .ldMemVx x => dataAddress s ≤ a ∧ a ≤ dataAddress s + x.val
  | _ => False

/-- Instruction `i`, executed in `s`, may write stack entry `k`: `2nnn` the entry at `SP` (40_control.md R102);
no other instruction writes one, `00EE` included (10_state.md R27). -/
def PushesTo (s : State) (i : Instr) (k : Fin 16) : Prop :=
  match i with
  | .call _ => k.val = s.sp.val
  | _ => False

/-- The sprite of `n` bytes at `I`, drawn at `(xv, yv)`, has a set bit at pixel `(r, c)`: some row and bit of
it, most significant bit first, lands there with each axis wrapping on its own (43_display.md R171, R174). -/
def SpriteCovers (s : State) (xv yv : Byte) (n : Nat) (r : Fin 32) (c : Fin 64) : Prop :=
  ∃ row bit : Nat, row < n ∧ bit < 8 ∧ r.val = (yv.toNat + row) % 32 ∧ c.val = (xv.toNat + bit) % 64 ∧
    (s.mem.read (dataAddress s + row)).getLsbD (7 - bit) = true

end Sys2Proof.Machine
end

