-- ==== Sys2Proof/Certificates/Slice0/Obligations.lean ====
section
/-! DEFINITION. The statements for the provers. Each docstring names the rule or section of spec/ it formalises;
where a clause rests on a decision the spec marks as its own (92_eei_decisions.md D<n>) or on a choice of the
model (log <n>), it says so; the decisions the model follows are listed in log 10. `Frame s t regs pieces` says
that nothing changed but `pc`, the general registers listed and the pieces listed, memory by the read of every
byte; among the pieces are the model's own fields `params` (log 2, DESIGN CHOICE) and `draws` (log 6, DESIGN
CHOICE). -/

open Sys2Proof Sys2Proof.Machine

/-! ## Encoding -/

/-- 30_encoding.md sections 1 and 2: decoding the encoding of an instruction gives it back, as a word and as
bytes in memory order, with every operand at every value its field admits. -/
def Obligations.DecodeOfEncodeIsIdentity : Prop :=
  ∀ (i : Instr) (rest : List Byte), i.WellFormed = true →
    decode (encode i) = some i ∧ decodeBytes (encodeBytes i ++ rest) = .ok (i, rest)

/-- 30_encoding.md section 2 and log 9: every legal word is the encoding of the instruction it decodes to, so
an instruction has exactly one word. -/
def Obligations.EncodeOfDecodeIsIdentity : Prop :=
  ∀ (w : Word) (i : Instr), decode w = some i → encode i = w

/-- 30_encoding.md R75: the decoder reads the instruction of the row of the 34-row opcode map whose mask and
match select the word, and none where no row does. -/
def Obligations.DecodeAgreesWithOpcodeMap : Prop :=
  opcodeTable.length = 34 ∧
    ∀ w : Word, decode w = (opcodeTable.find? (fun r => r.selects w)).map (fun r => r.build w)

/-- 30_encoding.md section 2 (the spec marks R76 as derived): no word is selected by two rows. -/
def Obligations.OpcodePatternsAreDisjoint : Prop :=
  ∀ w : Word, (opcodeTable.filter (fun r => r.selects w)).length ≤ 1

/-- 30_encoding.md section 3, with the strict reading of fixed nibbles the spec decides (D26): exactly which
words are illegal, by major opcode. -/
def Obligations.IllegalWordsAreExactly : Prop :=
  ∀ w : Word, decode w = none ↔
    (fieldN1 w = 0x0 ∧ w ≠ 0x00E0 ∧ w ≠ 0x00EE) ∨
    (fieldN1 w = 0x5 ∧ fieldN w ≠ 0x0) ∨
    (fieldN1 w = 0x8 ∧ fieldN w ∈ ([0x8, 0x9, 0xA, 0xB, 0xC, 0xD, 0xF] : List Nibble)) ∨
    (fieldN1 w = 0x9 ∧ fieldN w ≠ 0x0) ∨
    (fieldN1 w = 0xE ∧ fieldKk w ∉ ([0x9E, 0xA1] : List Byte)) ∨
    (fieldN1 w = 0xF ∧
      fieldKk w ∉ ([0x07, 0x0A, 0x15, 0x18, 0x1E, 0x29, 0x33, 0x55, 0x65] : List Byte))

/-- 30_encoding.md section 2: a word of each family, written out from its pattern, and illegal
neighbours (section 3, D26). -/
def Obligations.SampleWordsDecode : Prop :=
  decode 0x00EE = some .ret ∧ decode 0x2ABC = some (.call 0xABC) ∧
    decode 0x3A12 = some (.seByte 0xA 0x12) ∧ decode 0x8AB7 = some (.subn 0xA 0xB) ∧
    decode 0xA2F0 = some (.ldI 0x2F0) ∧ decode 0xF365 = some (.ldVxMem 0x3) ∧
    decode 0xD12F = some (.drw 0x1 0x2 0xF) ∧ decode 0xE29E = some (.skp 0x2) ∧
    decode 0xF318 = some (.ldStVx 0x3) ∧ decode 0x5121 = none ∧ decode 0x8128 = none ∧ decode 0x0000 = none

/-! ## The instruction cycle -/

/-- 30_encoding.md section 5 and 20_memory.md section 2: on a core without a recorded fault, when the two
bytes at `pc`, high byte first, decode to an instruction, a step is that instruction's execution in the same
state with `CHANGES` cleared. -/
def Obligations.StepRunsDecodedInstruction : Prop :=
  ∀ (s : State) (i : Instr), i.WellFormed = true → s.fault = none →
    s.pc.toNat + 1 < s.params.memSize →
    decode (wordOfBytes (s.mem.read s.pc.toNat) (s.mem.read (s.pc.toNat + 1))) = some i →
    step s = exec i { s with changes := none }

/-- 60_exceptions.md section 2 and 20_memory.md section 2 (D4, D10, D15, D23): a fetch that leaves memory records
`MEM_OUT_OF_BOUNDS` with no word and the first failing address; `CHANGES` is cleared and nothing else
changes. -/
def Obligations.FetchOutOfBoundsIsRecorded : Prop :=
  ∀ s : State, s.fault = none → s.params.memSize ≤ s.pc.toNat + 1 →
    step s = .next { s with
      changes := none
      fault := some
        { cause := .memOutOfBounds, fpc := s.pc, word := none,
          info := if s.params.memSize ≤ s.pc.toNat then s.pc.toNat else s.pc.toNat + 1 } }

/-- 20_memory.md section 2 (D4 for the out-of-bounds case): the inspection `FETCH` returns the big-endian word
at `pc`, or no word when either byte is out of bounds, and changes nothing. -/
def Obligations.InspectionFetchIsBigEndian : Prop :=
  ∀ s : State,
    (s.pc.toNat + 1 < s.params.memSize →
      ∃ w : Word, operate .fetch s = (s, .word (some w)) ∧
        w.toNat = (s.mem.read s.pc.toNat).toNat * 256 + (s.mem.read (s.pc.toNat + 1)).toNat) ∧
    (s.params.memSize ≤ s.pc.toNat + 1 → operate .fetch s = (s, .word none))

/-- 30_encoding.md sections 3 and 5 (D10, D23; D26 for which words are illegal): executing an illegal word on a
core without a recorded fault records `ILLEGAL_INSTRUCTION` with the word and changes nothing else; a tick that
fetches it does the same with `CHANGES` cleared, and that this clearing survives the fault is D15. -/
def Obligations.IllegalWordIsRecorded : Prop :=
  ∀ (s : State) (w : Word), s.fault = none → decode w = none →
    execute w s = .next { s with
      fault := some { cause := .illegalInstruction, fpc := s.pc, word := some w, info := w.toNat } } ∧
    (s.fetch = .ok w →
      step s = .next { s with
        changes := none
        fault := some { cause := .illegalInstruction, fpc := s.pc, word := some w, info := w.toNat } })

/-- 60_exceptions.md section 1 (D10, D22): while a fault is recorded `TICK` and `EXECUTE` change nothing;
every other operation but `RESET`, `NEW` and the read of `FAULT` does and answers what it would without the
fault, keeping the record; `RESET` and `NEW` clear it. -/
def Obligations.FaultedCoreObeysHostOnly : Prop :=
  ∀ (s : State) (f : FaultRecord), s.fault = some f →
    step s = .next s ∧ (∀ w, execute w s = .next s) ∧
    (∀ op : Operation,
      op ≠ .new → op ≠ .reset → op ≠ .tick → op ≠ .readFault → (∀ w, op ≠ .execute w) →
      (operate op s).1 = { (operate op { s with fault := none }).1 with fault := some f } ∧
      (operate op s).2 = (operate op { s with fault := none }).2) ∧
    operate .readFault s = (s, .fault (some f)) ∧
    (operate .reset s).1.fault = none ∧ (operate .new s).1.fault = none

/-- 60_exceptions.md section 1 (D10, D23): an instruction that faults changes nothing but `FAULT`, whose record
holds the `pc` and the instruction's own word, its encoding (log 9, DEDUCED). -/
def Obligations.FaultsArePrecise : Prop :=
  ∀ (i : Instr) (s t : State), s.fault = none → exec i s = .next t → t.fault ≠ none →
    ∃ (c : FaultCause) (info : Nat), t = { s with
      fault := some { cause := c, fpc := s.pc, word := some (encode i), info := info } }

/-- 60_exceptions.md section 1 (D4, D5, D7, D9, D11, D14): an instruction faults exactly under the conditions of
its own rule; every other condition is defined and faults nothing. That it then still answers a next state is
log 1 (DEDUCED). -/
def Obligations.InstructionsFaultExactlyWhen : Prop :=
  ∀ (i : Instr) (s : State), s.fault = none →
    ∃ t : State, exec i s = .next t ∧ (t.fault ≠ none ↔ FaultCondition s i)

/-- 60_exceptions.md sections 1 and 2, in the model's reading of a fault as a next state (log 1, DEDUCED):
every step answers a next state and a faulted core stays as it is (D10). The parameters of 00_scope.md section 4
never change; that they are a field of State is the model's choice (log 2, DESIGN CHOICE). -/
def Obligations.EveryStepAnswersNext : Prop :=
  ∀ s : State, ∃ t : State, step s = .next t ∧ (s.fault ≠ none → t = s) ∧ t.params = s.params

/-! ## Control transfer -/

/-- 40_control.md R101. -/
def Obligations.JumpSetsPc : Prop :=
  ∀ (s : State) (nnn : Addr12),
    ∃ t : State, exec (.jp nnn) s = .next t ∧ t.pc.toNat = nnn.toNat ∧ Frame s t [] []

/-- 40_control.md, `Bnnn` (D8): the sum with `V0` is kept to 16 bits, not 12. -/
def Obligations.JumpV0AddsV0 : Prop :=
  ∀ (s : State) (nnn : Addr12),
    ∃ t : State, exec (.jpV0 nnn) s = .next t ∧
      t.pc.toNat = (nnn.toNat + (s.getV 0).toNat) % 65536 ∧ Frame s t [] []

/-- 40_control.md, `2nnn` (D9): with a free entry the address after the call is pushed; with `SP = 16` it
faults, the whole record as 60_exceptions.md section 1 has it and nothing else changed (D10, D23). -/
def Obligations.CallPushesReturnAddress : Prop :=
  ∀ (s : State) (nnn : Addr12),
    (s.sp.val < 16 →
      ∃ t : State, exec (.call nnn) s = .next t ∧ t.pc.toNat = nnn.toNat ∧ t.sp.val = s.sp.val + 1 ∧
        (∀ k : Fin 16, t.stack[k] = if k.val = s.sp.val then s.pc + 2 else s.stack[k]) ∧
        Frame s t [] [.sp, .stack]) ∧
    (s.sp.val = 16 → FaultsWith (.call nnn) s .stackOverflow (encode (.call nnn)).toNat)

/-- 40_control.md, `00EE` (D9): the newest entry is popped into `pc` and keeps its value; with `SP = 0` it
faults, the whole record as 60_exceptions.md section 1 has it and nothing else changed (D10, D23). -/
def Obligations.ReturnPopsPc : Prop :=
  ∀ s : State,
    (0 < s.sp.val →
      ∃ t : State, exec .ret s = .next t ∧ t.sp.val + 1 = s.sp.val ∧
        (∀ k : Fin 16, k.val + 1 = s.sp.val → t.pc = s.stack[k]) ∧ Frame s t [] [.sp]) ∧
    (s.sp.val = 0 → FaultsWith .ret s .stackUnderflow 0x00EE)

/-- 40_control.md (D9): a call followed by a return continues after the call, with the stack as deep as
before, every entry but the pushed one as before, and nothing else changed. -/
def Obligations.CallThenReturnResumes : Prop :=
  ∀ (s : State) (nnn : Addr12), s.sp.val < 16 →
    ∃ t u : State, exec (.call nnn) s = .next t ∧ exec .ret t = .next u ∧
      u.pc.toNat = (s.pc.toNat + 2) % 65536 ∧ u.sp = s.sp ∧
      (∀ k : Fin 16, k.val ≠ s.sp.val → u.stack[k] = s.stack[k]) ∧ Frame s u [] [.stack]

/-- 40_control.md R103, R104. -/
def Obligations.ByteSkipsCompareImmediate : Prop :=
  ∀ (s : State) (x : Reg) (kk : Byte),
    (∃ t : State, exec (.seByte x kk) s = .next t ∧ Frame s t [] [] ∧
      t.pc.toNat = (s.pc.toNat + if (s.getV x).toNat = kk.toNat then 4 else 2) % 65536) ∧
    (∃ t : State, exec (.sneByte x kk) s = .next t ∧ Frame s t [] [] ∧
      t.pc.toNat = (s.pc.toNat + if (s.getV x).toNat ≠ kk.toNat then 4 else 2) % 65536)

/-- 40_control.md R105, R106. -/
def Obligations.RegisterSkipsCompareRegisters : Prop :=
  ∀ (s : State) (x y : Reg),
    (∃ t : State, exec (.seReg x y) s = .next t ∧ Frame s t [] [] ∧
      t.pc.toNat = (s.pc.toNat + if (s.getV x).toNat = (s.getV y).toNat then 4 else 2) % 65536) ∧
    (∃ t : State, exec (.sneReg x y) s = .next t ∧ Frame s t [] [] ∧
      t.pc.toNat = (s.pc.toNat + if (s.getV x).toNat ≠ (s.getV y).toNat then 4 else 2) % 65536)

/-! ## Register loads and the ALU -/

/-- 41_alu.md R120. -/
def Obligations.LoadByteWritesRegister : Prop :=
  ∀ (s : State) (x : Reg) (kk : Byte),
    ∃ t : State, exec (.ldByte x kk) s = .next t ∧ t.getV x = kk ∧
      t.pc.toNat = (s.pc.toNat + 2) % 65536 ∧ Frame s t [x] []

/-- 41_alu.md R121: no flag, so for `x` other than `0xF` the frame keeps `VF`. -/
def Obligations.AddByteWrapsWithoutFlag : Prop :=
  ∀ (s : State) (x : Reg) (kk : Byte),
    ∃ t : State, exec (.addByte x kk) s = .next t ∧
      (t.getV x).toNat = ((s.getV x).toNat + kk.toNat) % 256 ∧
      t.pc.toNat = (s.pc.toNat + 2) % 65536 ∧ Frame s t [x] []

/-- 41_alu.md R122. -/
def Obligations.CopyRegisterAssigns : Prop :=
  ∀ (s : State) (x y : Reg),
    ∃ t : State, exec (.ldReg x y) s = .next t ∧ t.getV x = s.getV y ∧
      t.pc.toNat = (s.pc.toNat + 2) % 65536 ∧ Frame s t [x] []

/-- 41_alu.md section 3, `8xy1` to `8xy3` (the spec derives that they write no flag): bit by bit, and `VF`
unchanged unless it is the destination. -/
def Obligations.LogicWorksBitwiseWithoutFlag : Prop :=
  ∀ (s : State) (x y : Reg),
    (∃ t : State, exec (.orReg x y) s = .next t ∧ Frame s t [x] [] ∧
      t.pc.toNat = (s.pc.toNat + 2) % 65536 ∧
      ∀ j : Nat, j < 8 →
        (t.getV x).getLsbD j = ((s.getV x).getLsbD j || (s.getV y).getLsbD j)) ∧
    (∃ t : State, exec (.andReg x y) s = .next t ∧ Frame s t [x] [] ∧
      t.pc.toNat = (s.pc.toNat + 2) % 65536 ∧
      ∀ j : Nat, j < 8 →
        (t.getV x).getLsbD j = ((s.getV x).getLsbD j && (s.getV y).getLsbD j)) ∧
    (∃ t : State, exec (.xorReg x y) s = .next t ∧ Frame s t [x] [] ∧
      t.pc.toNat = (s.pc.toNat + 2) % 65536 ∧
      ∀ j : Nat, j < 8 →
        (t.getV x).getLsbD j = ((s.getV x).getLsbD j != (s.getV y).getLsbD j))

/-- 41_alu.md section 3, `8xy4` (D2: the flag is the last write, so it is what `VF` holds for `x = 0xF`; D29:
operands are read before anything is written). -/
def Obligations.AddRegisterCarries : Prop :=
  ∀ (s : State) (x y : Reg),
    ∃ t : State, exec (.addReg x y) s = .next t ∧ Frame s t [x, vF] [] ∧
      t.pc.toNat = (s.pc.toNat + 2) % 65536 ∧
      (x ≠ vF → (t.getV x).toNat = ((s.getV x).toNat + (s.getV y).toNat) % 256) ∧
      (t.getV vF).toNat = if (s.getV x).toNat + (s.getV y).toNat > 255 then 1 else 0

/-- 41_alu.md section 3, `8xy5` and `8xy7` (D2, D29). -/
def Obligations.SubtractionsBorrow : Prop :=
  ∀ (s : State) (x y : Reg),
    (∃ t : State, exec (.subReg x y) s = .next t ∧ Frame s t [x, vF] [] ∧
      t.pc.toNat = (s.pc.toNat + 2) % 65536 ∧
      (x ≠ vF → ((t.getV x).toNat : Int) = ((s.getV x).toNat - (s.getV y).toNat : Int) % 256) ∧
      (t.getV vF).toNat = if (s.getV x).toNat ≥ (s.getV y).toNat then 1 else 0) ∧
    (∃ t : State, exec (.subn x y) s = .next t ∧ Frame s t [x, vF] [] ∧
      t.pc.toNat = (s.pc.toNat + 2) % 65536 ∧
      (x ≠ vF → ((t.getV x).toNat : Int) = ((s.getV y).toNat - (s.getV x).toNat : Int) % 256) ∧
      (t.getV vF).toNat = if (s.getV y).toNat ≥ (s.getV x).toNat then 1 else 0)

/-- 41_alu.md section 3, `8xy6` and `8xyE` (D1: the shifted register is the parameter `SHIFT_SOURCE`, here at
both its values; D2, D29). -/
def Obligations.ShiftsMoveOneBit : Prop :=
  ∀ (s : State) (x y : Reg) (src : Nat),
    (s.params.shiftSource = .vx → src = (s.getV x).toNat) →
    (s.params.shiftSource = .vy → src = (s.getV y).toNat) →
    (∃ t : State, exec (.shr x y) s = .next t ∧ Frame s t [x, vF] [] ∧
      t.pc.toNat = (s.pc.toNat + 2) % 65536 ∧
      (x ≠ vF → (t.getV x).toNat = src / 2) ∧ (t.getV vF).toNat = src % 2) ∧
    (∃ t : State, exec (.shl x y) s = .next t ∧ Frame s t [x, vF] [] ∧
      t.pc.toNat = (s.pc.toNat + 2) % 65536 ∧
      (x ≠ vF → (t.getV x).toNat = src * 2 % 256) ∧ (t.getV vF).toNat = src / 128)

/-- 41_alu.md section 1, the flag conventions, as the value of `VF` after the instruction, which is 0 or 1
whatever it was. For `x = 0xF` this rests on the spec's decision that the flag is written last (D2), after
the operands are read (D29), and the shifted register is the parameter `SHIFT_SOURCE` at both its values (D1;
logs 3 and 10). -/
def Obligations.FlagConventionsOfVF : Prop :=
  ∀ (s t : State) (x y : Reg),
    (exec (.addReg x y) s = .next t →
      (t.getV vF = 1 ↔ (s.getV x).toNat + (s.getV y).toNat > 255) ∧ (t.getV vF = 0 ∨ t.getV vF = 1)) ∧
    (exec (.subReg x y) s = .next t →
      (t.getV vF = 1 ↔ (s.getV x).toNat ≥ (s.getV y).toNat) ∧ (t.getV vF = 0 ∨ t.getV vF = 1)) ∧
    (exec (.subn x y) s = .next t →
      (t.getV vF = 1 ↔ (s.getV y).toNat ≥ (s.getV x).toNat) ∧ (t.getV vF = 0 ∨ t.getV vF = 1)) ∧
    (exec (.shr x y) s = .next t →
      (t.getV vF = 1 ↔ (shiftOperand s x y).getLsbD 0 = true) ∧ (t.getV vF = 0 ∨ t.getV vF = 1)) ∧
    (exec (.shl x y) s = .next t →
      (t.getV vF = 1 ↔ (shiftOperand s x y).getLsbD 7 = true) ∧ (t.getV vF = 0 ∨ t.getV vF = 1))

/-- 41_alu.md section 4 (D18; log 6 for the free byte and its counter): one byte is taken from the random
source at every execution, whatever `kk`, and only its bits under `kk` reach the register. The byte is a free
value: the statement holds whatever it is. -/
def Obligations.RandomByteIsMasked : Prop :=
  ∀ (s : State) (x : Reg) (kk : Byte),
    ∃ t : State, exec (.rnd x kk) s = .next t ∧ t.draws = s.draws + 1 ∧
      t.pc.toNat = (s.pc.toNat + 2) % 65536 ∧ Frame s t [x] [.draws] ∧
      ∀ j : Nat, j < 8 →
        (t.getV x).getLsbD j = ((Config.randomByte s.draws).getLsbD j && kk.getLsbD j)

/-! ## The index register and memory transfers -/

/-- 42_index_memory.md R150, R152. -/
def Obligations.IndexLoadsSetI : Prop :=
  ∀ s : State,
    (∀ nnn : Addr12, ∃ t : State, exec (.ldI nnn) s = .next t ∧ t.i.toNat = nnn.toNat ∧
      t.pc.toNat = (s.pc.toNat + 2) % 65536 ∧ Frame s t [] [.i]) ∧
    (∀ x : Reg, ∃ t : State, exec (.ldF x) s = .next t ∧ t.i.toNat = (s.getV x).toNat * 5 ∧
      t.pc.toNat = (s.pc.toNat + 2) % 65536 ∧ Frame s t [] [.i])

/-- 42_index_memory.md, `Fx1E` (D7): the sum wraps at 16 bits and no flag is written. -/
def Obligations.AddIndexWrapsAtSixteenBits : Prop :=
  ∀ (s : State) (x : Reg),
    ∃ t : State, exec (.addI x) s = .next t ∧ t.i.toNat = (s.i.toNat + (s.getV x).toNat) % 65536 ∧
      t.pc.toNat = (s.pc.toNat + 2) % 65536 ∧ Frame s t [] [.i]

/-- 42_index_memory.md, `Fx33` (D3, D4, D5, D10, D23, D28): the three digits at `I`, `I+1`, `I+2` and no other byte;
or, when a byte may not be written, a fault with the lowest such address and no byte written. -/
def Obligations.BcdStoresThreeDigits : Prop :=
  ∀ (s : State) (x : Reg),
    ((∀ k, k < 3 → MayWrite s (dataAddress s + k)) →
      ∃ t : State, exec (.ldB x) s = .next t ∧ t.pc.toNat = (s.pc.toNat + 2) % 65536 ∧
        (t.mem.read (dataAddress s)).toNat = (s.getV x).toNat / 100 ∧
        (t.mem.read (dataAddress s + 1)).toNat = (s.getV x).toNat / 10 % 10 ∧
        (t.mem.read (dataAddress s + 2)).toNat = (s.getV x).toNat % 10 ∧
        (∀ a, a < dataAddress s ∨ dataAddress s + 3 ≤ a → t.mem.read a = s.mem.read a) ∧
        Frame s t [] [.mem]) ∧
    (∀ k, k < 3 → ¬MayWrite s (dataAddress s + k) → (∀ j, j < k → MayWrite s (dataAddress s + j)) →
      FaultsWith (.ldB x) s .memOutOfBounds (dataAddress s + k))

/-- 42_index_memory.md, `Fx55` (D3, D4, D5, D10, D23, D28): `V0..Vx` at `I..I+x` and no other byte, `I`
unchanged; or a fault with the lowest address that may not be written and no byte written. -/
def Obligations.StoreRegistersWritesRange : Prop :=
  ∀ (s : State) (x : Reg),
    ((∀ k, k ≤ x.val → MayWrite s (dataAddress s + k)) →
      ∃ t : State, exec (.ldMemVx x) s = .next t ∧ t.pc.toNat = (s.pc.toNat + 2) % 65536 ∧
        (∀ r : Reg, r ≤ x → t.mem.read (dataAddress s + r.val) = s.getV r) ∧
        (∀ a, a < dataAddress s ∨ dataAddress s + x.val + 1 ≤ a → t.mem.read a = s.mem.read a) ∧
        Frame s t [] [.mem]) ∧
    (∀ k, k ≤ x.val → ¬MayWrite s (dataAddress s + k) → (∀ j, j < k → MayWrite s (dataAddress s + j)) →
      FaultsWith (.ldMemVx x) s .memOutOfBounds (dataAddress s + k))

/-- 42_index_memory.md, `Fx65` (D3, D4, D10, D23, D28): `V0..Vx` from `I..I+x`, registers above `Vx` and `I`
unchanged; or a fault with the lowest address out of memory and no register written. -/
def Obligations.LoadRegistersReadsRange : Prop :=
  ∀ (s : State) (x : Reg),
    (dataAddress s + x.val < s.params.memSize →
      ∃ t : State, exec (.ldVxMem x) s = .next t ∧ t.pc.toNat = (s.pc.toNat + 2) % 65536 ∧
        (∀ r : Reg, r ≤ x → t.getV r = s.mem.read (dataAddress s + r.val)) ∧
        Frame s t (regsUpTo x) []) ∧
    (s.params.memSize ≤ dataAddress s + x.val →
      FaultsWith (.ldVxMem x) s .memOutOfBounds (max (dataAddress s) s.params.memSize))

/-- 42_index_memory.md, the round trip of `Fx55` and `Fx65` (D3; D4 and D5 for which writes are performed):
registers stored and then loaded from the same address, whatever the registers were changed to between, are the
original ones. -/
def Obligations.StoreThenLoadRestoresRegisters : Prop :=
  ∀ (s t u : State) (x : Reg),
    (∀ k, k ≤ x.val → MayWrite s (dataAddress s + k)) → exec (.ldMemVx x) s = .next t →
    u.mem = t.mem → u.i = t.i → u.params = t.params →
    ∃ w : State, exec (.ldVxMem x) u = .next w ∧ ∀ r : Reg, r ≤ x → w.getV r = s.getV r

/-- 20_memory.md section 4 (the spec derives it; D4 and D5 for which writes are performed): a word stored by
`Fx55` is what the very next fetch at its address reads. -/
def Obligations.StoreIsSeenByNextFetch : Prop :=
  ∀ (s t : State) (x r q : Reg) (p : Word),
    (∀ k, k ≤ x.val → MayWrite s (dataAddress s + k)) → exec (.ldMemVx x) s = .next t →
    q ≤ x → q.val = r.val + 1 → p.toNat = dataAddress s + r.val →
    State.fetch { t with pc := p } = .ok (wordOfBytes (s.getV r) (s.getV q))

/-! ## Display -/

/-- 43_display.md, `00E0` (D15 for the descriptor). -/
def Obligations.ClearDisplayZeroesPixels : Prop :=
  ∀ s : State,
    ∃ t : State, exec .cls s = .next t ∧ (∀ r c, t.fb.get r c = false) ∧ t.changes = some .cleared ∧
      t.pc.toNat = (s.pc.toNat + 2) % 65536 ∧ Frame s t [] [.fb, .changes]

/-- 43_display.md, the sprite engine and `Dxyn` (D4, D10, D14, D15, D23, D28, D29): every pixel becomes its old
value XOR the sprite's bit there, each axis wrapping on its own; `VF` is 1 exactly when a lit pixel was erased
and 0 otherwise; the descriptor holds the unreduced coordinates; or, when a sprite byte is out of memory, a
fault with the first such address and nothing drawn. -/
def Obligations.DrawXorsSpriteIntoDisplay : Prop :=
  ∀ (s : State) (x y : Reg) (n : Nibble),
    (n.toNat = 0 ∨ dataAddress s + n.toNat ≤ s.params.memSize →
      ∃ t : State, exec (.drw x y n) s = .next t ∧ t.pc.toNat = (s.pc.toNat + 2) % 65536 ∧
        (∀ r c, t.fb.get r c = true ↔
          ¬(s.fb.get r c = true ↔ SpriteCovers s (s.getV x) (s.getV y) n.toNat r c)) ∧
        (t.getV vF = 1 ↔
          ∃ r c, s.fb.get r c = true ∧ SpriteCovers s (s.getV x) (s.getV y) n.toNat r c) ∧
        (t.getV vF = 0 ∨ t.getV vF = 1) ∧
        t.changes = some (.sprite (s.getV x) (s.getV y) n) ∧ Frame s t [vF] [.fb, .changes]) ∧
    (0 < n.toNat → s.params.memSize < dataAddress s + n.toNat →
      FaultsWith (.drw x y n) s .memOutOfBounds (max (dataAddress s) s.params.memSize))

/-- 43_display.md section 1, the rules of the sprite engine and of collision (D4 for which draws do not fault):
the first draw's collision is computed over the whole sprite and written as 0 or 1; the same sprite drawn again
at the same coordinates restores the framebuffer. The last sentence of R173 quotes the source's "collision=true
on the second draw whenever the sprite has any set bit"; by R171 that holds exactly when some set bit fell on a
dark pixel the first time, and this is what is stated (log 11, DEDUCED). The second draw may name the
coordinates by other registers, since the first wrote `VF`. -/
def Obligations.DrawTwiceRestoresDisplay : Prop :=
  ∀ (s t u w : State) (x y x2 y2 : Reg) (n : Nibble),
    (n.toNat = 0 ∨ dataAddress s + n.toNat ≤ s.params.memSize) →
    exec (.drw x y n) s = .next t →
    u.fb = t.fb → u.mem = t.mem → u.i = t.i → u.params = t.params →
    u.getV x2 = s.getV x → u.getV y2 = s.getV y →
    exec (.drw x2 y2 n) u = .next w →
    ((t.getV vF = 1 ∧ ∃ r c, s.fb.get r c = true ∧ SpriteCovers s (s.getV x) (s.getV y) n.toNat r c) ∨
      (t.getV vF = 0 ∧ ∀ r c, s.fb.get r c = true → ¬SpriteCovers s (s.getV x) (s.getV y) n.toNat r c)) ∧
    w.fb = s.fb ∧
    (w.getV vF = 1 ↔
      ∃ r c, s.fb.get r c = false ∧ SpriteCovers s (s.getV x) (s.getV y) n.toNat r c)

/-- 43_display.md R178. -/
def Obligations.BufferIsRowMajor : Prop :=
  ∀ s : State, ∃ pixels : List Nat, operate .getBuffer s = (s, .buffer pixels) ∧ pixels.length = 2048 ∧
    ∀ (r : Fin 32) (c : Fin 64), pixels[r.val * 64 + c.val]? = some (if s.fb.get r c then 1 else 0)

/-- 43_display.md R180, and `GET_CHANGES` returning the descriptor without a change. -/
def Obligations.ClearChangesResetsDescriptor : Prop :=
  ∀ s : State, ∃ t : State, operate .clearChanges s = (t, .done) ∧ t.changes = none ∧ t.pc = s.pc ∧
    Frame s t [] [.changes] ∧ operate .getChanges s = (s, .changes s.changes) ∧
    operate .getChanges t = (t, .changes none)

/-! ## Keyboard -/

/-- 44_keyboard.md, `Ex9E` and `ExA1` (D10, D11, D23 for the fault). -/
def Obligations.KeySkipsTestLatch : Prop :=
  ∀ (s : State) (x : Reg),
    (∀ k : Key, (s.getV x).toNat = k.val →
      (∃ t : State, exec (.skp x) s = .next t ∧ Frame s t [] [] ∧
        t.pc.toNat = (s.pc.toNat + if s.keyHeld k = true then 4 else 2) % 65536) ∧
      (∃ t : State, exec (.sknp x) s = .next t ∧ Frame s t [] [] ∧
        t.pc.toNat = (s.pc.toNat + if s.keyHeld k = true then 2 else 4) % 65536)) ∧
    (15 < (s.getV x).toNat →
      FaultsWith (.skp x) s .keyOutOfRange (s.getV x).toNat ∧
      FaultsWith (.sknp x) s .keyOutOfRange (s.getV x).toNat)

/-- 44_keyboard.md R206: with a key held, the lowest one reaches `Vx` and `pc` moves on; with none held,
nothing at all changes. -/
def Obligations.WaitForKeyTakesLowestKey : Prop :=
  ∀ (s : State) (x : Reg),
    (∀ k : Key, s.keyHeld k = true → (∀ j, j < k → s.keyHeld j = false) →
      ∃ t : State, exec (.ldVxK x) s = .next t ∧ (t.getV x).toNat = k.val ∧
        t.pc.toNat = (s.pc.toNat + 2) % 65536 ∧ Frame s t [x] []) ∧
    ((∀ k, s.keyHeld k = false) → exec (.ldVxK x) s = .next s)

/-- 44_keyboard.md R203. -/
def Obligations.GetPressedReturnsLowestKey : Prop :=
  ∀ s : State,
    (∀ k : Key, s.keyHeld k = true → (∀ j, j < k → s.keyHeld j = false) →
      operate .getPressed s = (s, .key (some k))) ∧
    ((∀ k, s.keyHeld k = false) → operate .getPressed s = (s, .key none))

/-- 44_keyboard.md section 1 (D11 for the refusals): pressing and releasing set one key and leave everything
else, a query answers the latch, and a code above 15 is refused with no change. -/
def Obligations.KeyOperationsSetOneKey : Prop :=
  ∀ (s : State) (code : Nat),
    (∀ k : Key, code = k.val →
      (∃ t : State, operate (.setKey code) s = (t, .done) ∧ t.pc = s.pc ∧ Frame s t [] [.keys] ∧
        ∀ q, t.keyHeld q = (decide (q = k) || s.keyHeld q)) ∧
      (∃ t : State, operate (.unsetKey code) s = (t, .done) ∧ t.pc = s.pc ∧ Frame s t [] [.keys] ∧
        ∀ q, t.keyHeld q = (decide (q ≠ k) && s.keyHeld q)) ∧
      operate (.isPressed code) s = (s, .pressed (s.keyHeld k))) ∧
    (15 < code →
      operate (.setKey code) s = (s, .refused (.keyCodeOutOfRange code)) ∧
      operate (.unsetKey code) s = (s, .refused (.keyCodeOutOfRange code)) ∧
      operate (.isPressed code) s = (s, .refused (.keyCodeOutOfRange code)))

/-! ## Timers -/

/-- 45_timers.md R220, R221, R222. -/
def Obligations.TimerInstructionsMoveTimers : Prop :=
  ∀ (s : State) (x : Reg),
    (∃ t : State, exec (.ldVxDt x) s = .next t ∧ t.getV x = s.dt ∧
      t.pc.toNat = (s.pc.toNat + 2) % 65536 ∧ Frame s t [x] []) ∧
    (∃ t : State, exec (.ldDtVx x) s = .next t ∧ t.dt = s.getV x ∧
      t.pc.toNat = (s.pc.toNat + 2) % 65536 ∧ Frame s t [] [.dt]) ∧
    (∃ t : State, exec (.ldStVx x) s = .next t ∧ t.st = s.getV x ∧
      t.pc.toNat = (s.pc.toNat + 2) % 65536 ∧ Frame s t [] [.st])

/-- 45_timers.md, `UPDATE_TIMERS` (D22: also while faulted or waiting): both counters go down by 1, saturating
at 0, and nothing else changes. -/
def Obligations.UpdateTimersSaturates : Prop :=
  ∀ s : State, ∃ t : State, operate .updateTimers s = (t, .done) ∧
    t.dt.toNat = s.dt.toNat - 1 ∧ t.st.toNat = s.st.toNat - 1 ∧ t.pc = s.pc ∧ Frame s t [] [.dt, .st]

/-! ## Reset and loading -/

/-- 70_reset_and_hazards.md section 1 (D16, D17, D24; logs 2 and 6 for the two fields kept): `NEW` and `RESET` give
every piece of state its power-on value, from any state, and the machine's reset state is what they give. -/
def Obligations.RestartRestoresPowerOnState : Prop :=
  (∀ s : State, ∃ t : State, operate .reset s = (t, .done) ∧ operate .new s = (t, .done) ∧
    (∀ r, t.getV r = 0) ∧ t.i = 0 ∧ t.pc = BitVec.ofNat 16 s.params.loadAddr ∧ t.sp.val = 0 ∧
    (∀ k : Fin 16, t.stack[k] = 0) ∧ t.dt = 0 ∧ t.st = 0 ∧ (∀ r c, t.fb.get r c = false) ∧
    t.changes = none ∧ (∀ k, t.keyHeld k = false) ∧ t.fault = none ∧
    (∀ a, t.mem.read a = (s.params.fontImage[a]?).getD 0) ∧ t.params = s.params ∧ t.draws = s.draws) ∧
  operate .reset State.reset = (State.reset, .done) ∧ State.reset.pc = 0x200

/-- 70_reset_and_hazards.md section 1 (D21 for the refusal): an image that fits is copied to `LOAD_ADDR` and
nothing else changes; one that does not is refused and no byte is written. -/
def Obligations.LoadCopiesImage : Prop :=
  ∀ (s : State) (bytes : List Byte),
    (s.params.loadAddr + bytes.length ≤ s.params.memSize →
      ∃ t : State, operate (.load bytes) s = (t, .done) ∧ t.pc = s.pc ∧ Frame s t [] [.mem] ∧
        (∀ k, k < bytes.length → bytes[k]? = some (t.mem.read (s.params.loadAddr + k))) ∧
        (∀ a, a < s.params.loadAddr ∨ s.params.loadAddr + bytes.length ≤ a →
          t.mem.read a = s.mem.read a)) ∧
    (s.params.memSize < s.params.loadAddr + bytes.length →
      operate (.load bytes) s = (s, .refused (.imageDoesNotFit bytes.length)))

/-! ## Whole-machine rules -/

/-- 10_state.md (which instructions write each piece of state): an instruction changes, besides `pc`, at most
the registers and pieces its rule names; of memory at most the bytes `Fx33` and `Fx55` store from `I`, and of
the stack at most the entry `2nnn` pushes at `SP`. Nothing writes `KEYS` or the parameters. That `Fx33`, `Fx55`
and `Fx65` keep `I` is D3, that `00EE` keeps the entry it pops is D9, and that `00E0` records `CHANGES` is D15
(log 10); `params` and `draws` are the model's own fields (logs 2 and 6, DESIGN CHOICE). -/
def Obligations.InstructionsWriteOnlyTheirDestinations : Prop :=
  ∀ (i : Instr) (s t : State), exec i s = .next t →
    Frame s t (destRegs i) (destPieces i) ∧
    (∀ a, ¬StoresTo s i a → t.mem.read a = s.mem.read a) ∧
    (∀ k : Fin 16, ¬PushesTo s i k → t.stack[k] = s.stack[k])

/-- 10_state.md sections 4 and 5: no instruction reads `CHANGES` or `ST`, so a run does not depend on them: from
states that differ only there, an instruction gives states that differ only there. -/
def Obligations.NoInstructionReadsChangesOrSt : Prop :=
  ∀ (i : Instr) (s t : State) (c : Option Damage) (b : Byte), exec i s = .next t →
    ∃ (c2 : Option Damage) (b2 : Byte),
      exec i { s with changes := c, st := b } = .next { t with changes := c2, st := b2 }

/-- 10_state.md section 3 (D9): the stack entries at and above `SP` are not observable: from states that differ
only there, an instruction gives states that differ only there. -/
def Obligations.StaleStackEntriesAreUnobservable : Prop :=
  ∀ (i : Instr) (s t : State) (other : Vector Word 16),
    (∀ k : Fin 16, k.val < s.sp.val → other[k] = s.stack[k]) → exec i s = .next t →
    ∃ after : Vector Word 16,
      exec i { s with stack := other } = .next { t with stack := after } ∧
        ∀ k : Fin 16, k.val < t.sp.val → after[k] = t.stack[k]

/-- The canonical form is the model's own representation of the store of 20_memory.md section 1 (log 12, DESIGN
CHOICE): memories in that form that read alike are equal data. -/
def Obligations.CanonicalMemoriesAreExtensional : Prop :=
  ∀ m k : Memory, m.wf → k.wf → (∀ a, m.read a = k.read a) → m = k

/-- The reset state meets the invariant `State.Inv`, and so does every restart with well-formed parameters
(00_scope.md section 4). That memory is in canonical form is a clause about the model's own representation
(log 12, DESIGN CHOICE), and `State.reset` takes the reference parameters (logs 2 to 5, DESIGN CHOICE). -/
def Obligations.RestartMeetsInvariant : Prop :=
  State.reset.Inv ∧ ∀ s : State, s.params.WellFormed → s.restart.Inv

/-- A step keeps the invariant, from every state that meets it: the parameters meet their constraints
(00_scope.md section 4), no byte is listed outside the store (20_memory.md section 1), and memory is in its
canonical form, which is the model's own representation and no rule of the spec (log 12, DESIGN CHOICE). -/
def Obligations.StepKeepsInvariant : Prop :=
  ∀ s t : State, s.Inv → step s = .next t → t.Inv

/-- 00_scope.md section 5: the host's operations, in any order, keep the invariant and the parameters. The
model's own choices in this: a run is a list of operations (log 7, DESIGN CHOICE), the canonical form of memory
(log 12, DESIGN CHOICE), the parameters as a field of State (log 2, DESIGN CHOICE), and the counter `draws` of
random bytes taken, which never goes down (log 6, DESIGN CHOICE). -/
def Obligations.EveryRunKeepsInvariant : Prop :=
  ∀ (s : State) (ops : List Operation), s.Inv →
    (runOperations s ops).Inv ∧ (runOperations s ops).params = s.params ∧
      s.draws ≤ (runOperations s ops).draws
end

