-- ==== Sys2Proof/Laws/Decode.lean ====
section
/-! SUPPORT. The fields of each encoded word form, and a word put together again from its fields. -/

namespace Sys2Proof

@[simp] theorem toFin_regBits (r : Reg) : (regBits r).toFin = r := rfl

@[simp] theorem regBits_toFin (b : Nibble) : regBits b.toFin = b := rfl

@[simp] theorem fieldN1_wordXyn (a : Nibble) (x y : Reg) (n : Nibble) : fieldN1 (wordXyn a x y n) = a := by
  apply BitVec.eq_of_getElem_eq; intro i hi
  simp only [fieldN1, wordXyn, BitVec.getElem_extractLsb', BitVec.getLsbD_append]
  interval_cases i <;> simp [BitVec.getLsbD_eq_getElem]

@[simp] theorem fieldX_wordXyn (a : Nibble) (x y : Reg) (n : Nibble) : fieldX (wordXyn a x y n) = x := by
  have h : fieldN2 (wordXyn a x y n) = regBits x := by
    apply BitVec.eq_of_getElem_eq; intro i hi
    simp only [fieldN2, wordXyn, BitVec.getElem_extractLsb', BitVec.getLsbD_append]
    interval_cases i <;> simp [BitVec.getLsbD_eq_getElem]
  rw [fieldX, h, toFin_regBits]

@[simp] theorem fieldY_wordXyn (a : Nibble) (x y : Reg) (n : Nibble) : fieldY (wordXyn a x y n) = y := by
  have h : fieldN3 (wordXyn a x y n) = regBits y := by
    apply BitVec.eq_of_getElem_eq; intro i hi
    simp only [fieldN3, wordXyn, BitVec.getElem_extractLsb', BitVec.getLsbD_append]
    interval_cases i <;> simp [BitVec.getLsbD_eq_getElem]
  rw [fieldY, h, toFin_regBits]

@[simp] theorem fieldN_wordXyn (a : Nibble) (x y : Reg) (n : Nibble) : fieldN (wordXyn a x y n) = n := by
  apply BitVec.eq_of_getElem_eq; intro i hi
  simp only [fieldN, wordXyn, BitVec.getElem_extractLsb', BitVec.getLsbD_append]
  interval_cases i <;> simp [BitVec.getLsbD_eq_getElem]

@[simp] theorem fieldN1_wordXkk (a : Nibble) (x : Reg) (kk : Byte) : fieldN1 (wordXkk a x kk) = a := by
  apply BitVec.eq_of_getElem_eq; intro i hi
  simp only [fieldN1, wordXkk, BitVec.getElem_extractLsb', BitVec.getLsbD_append]
  interval_cases i <;> simp [BitVec.getLsbD_eq_getElem]

@[simp] theorem fieldX_wordXkk (a : Nibble) (x : Reg) (kk : Byte) : fieldX (wordXkk a x kk) = x := by
  have h : fieldN2 (wordXkk a x kk) = regBits x := by
    apply BitVec.eq_of_getElem_eq; intro i hi
    simp only [fieldN2, wordXkk, BitVec.getElem_extractLsb', BitVec.getLsbD_append]
    interval_cases i <;> simp [BitVec.getLsbD_eq_getElem]
  rw [fieldX, h, toFin_regBits]

@[simp] theorem fieldKk_wordXkk (a : Nibble) (x : Reg) (kk : Byte) : fieldKk (wordXkk a x kk) = kk := by
  apply BitVec.eq_of_getElem_eq; intro i hi
  simp only [fieldKk, wordXkk, BitVec.getElem_extractLsb', BitVec.getLsbD_append]
  interval_cases i <;> simp [BitVec.getLsbD_eq_getElem]

@[simp] theorem fieldN1_wordNnn (a : Nibble) (nnn : Addr12) : fieldN1 (wordNnn a nnn) = a := by
  apply BitVec.eq_of_getElem_eq; intro i hi
  simp only [fieldN1, wordNnn, BitVec.getElem_extractLsb', BitVec.getLsbD_append]
  interval_cases i <;> simp [BitVec.getLsbD_eq_getElem]

@[simp] theorem fieldNnn_wordNnn (a : Nibble) (nnn : Addr12) : fieldNnn (wordNnn a nnn) = nnn := by
  apply BitVec.eq_of_getElem_eq; intro i hi
  simp only [fieldNnn, wordNnn, BitVec.getElem_extractLsb', BitVec.getLsbD_append]
  interval_cases i <;> simp [BitVec.getLsbD_eq_getElem]

/-- A word is the four nibbles of its fields. -/
theorem wordXyn_fields (w : Word) : wordXyn (fieldN1 w) (fieldX w) (fieldY w) (fieldN w) = w := by
  apply BitVec.eq_of_getLsbD_eq; intro i hi
  simp only [wordXyn, fieldX, fieldY, regBits_toFin, fieldN1, fieldN2, fieldN3, fieldN,
    BitVec.getLsbD_append]
  interval_cases i <;> simp

theorem wordXkk_fields (w : Word) : wordXkk (fieldN1 w) (fieldX w) (fieldKk w) = w := by
  apply BitVec.eq_of_getLsbD_eq; intro i hi
  simp only [wordXkk, fieldX, regBits_toFin, fieldN1, fieldN2, fieldKk, BitVec.getLsbD_append]
  interval_cases i <;> simp

theorem wordNnn_fields (w : Word) : wordNnn (fieldN1 w) (fieldNnn w) = w := by
  apply BitVec.eq_of_getLsbD_eq; intro i hi
  simp only [wordNnn, fieldN1, fieldNnn, BitVec.getLsbD_append]
  interval_cases i <;> simp

/-- A word is its two bytes, high byte first. -/
@[simp] theorem wordOfBytes_bytes (w : Word) : wordOfBytes (highByte w) (lowByte w) = w := by
  apply BitVec.eq_of_getLsbD_eq; intro i hi
  simp only [wordOfBytes, highByte, lowByte, BitVec.getLsbD_append]
  interval_cases i <;> simp

@[simp] theorem highByte_wordOfBytes (hi lo : Byte) : highByte (wordOfBytes hi lo) = hi := by
  apply BitVec.eq_of_getElem_eq; intro i h
  simp only [highByte, wordOfBytes, BitVec.getElem_extractLsb', BitVec.getLsbD_append]
  interval_cases i <;> simp [BitVec.getLsbD_eq_getElem]

@[simp] theorem lowByte_wordOfBytes (hi lo : Byte) : lowByte (wordOfBytes hi lo) = lo := by
  apply BitVec.eq_of_getElem_eq; intro i h
  simp only [lowByte, wordOfBytes, BitVec.getElem_extractLsb', BitVec.getLsbD_append]
  interval_cases i <;> simp [BitVec.getLsbD_eq_getElem]

end Sys2Proof
end

