-- ==== Sys2Proof/Laws/Memory.lean ====
section
/-! SUPPORT. The laws of the memory store: a read after a write, and the canonical form is kept by every
memory operation. -/

namespace Sys2Proof.Machine.Memory

theorem read_insert (m : Memory) (a c : Nat) (b : Byte) :
    (m.insert a b).read c = if c = a then b else m.read c := by
  induction m with
  | nil => simp [insert, read]
  | cons p m ih =>
    obtain ⟨k, d⟩ := p
    simp only [insert]
    split
    · simp [read]
    · split
      · subst_vars; simp only [read]; split <;> rfl
      · simp only [read, ih]
        split <;> split <;> simp_all

theorem read_erase (m : Memory) (a c : Nat) :
    (m.erase a).read c = if c = a then unlisted else m.read c := by
  induction m with
  | nil => simp [erase, read]
  | cons p m ih =>
    obtain ⟨k, d⟩ := p
    simp only [erase] at ih
    by_cases hk : k = a
    · subst hk
      simp only [erase, List.filter_cons, bne_self_eq_false, Bool.false_eq_true, if_false, ih, read]
      split <;> simp_all
    · simp only [erase, List.filter_cons, bne_iff_ne, ne_eq, hk, not_false_eq_true, if_true, read, ih]
      split <;> split <;> simp_all

/-- A read returns the last byte written to its address; every other address is untouched. -/
theorem read_write (m : Memory) (a c : Nat) (b : Byte) :
    (m.write a b).read c = if c = a then b else m.read c := by
  simp only [write]
  split
  · subst_vars; exact read_erase m a c
  · exact read_insert m a c b

@[simp] theorem read_write_self (m : Memory) (a : Nat) (b : Byte) : (m.write a b).read a = b := by
  simp [read_write]

/-- A slice write sets exactly its own bytes. -/
theorem read_writeSlice (m : Memory) (a c : Nat) (bs : List Byte) :
    (m.writeSlice a bs).read c = if a ≤ c then (bs[c - a]?).getD (m.read c) else m.read c := by
  induction bs generalizing m a with
  | nil => simp [writeSlice]
  | cons b bs ih =>
    simp only [writeSlice, ih, read_write]
    by_cases h1 : a + 1 ≤ c
    · have h2 : a ≤ c := by omega
      have h3 : c ≠ a := by omega
      have h4 : c - a = (c - (a + 1)) + 1 := by omega
      simp [h1, h2, h3, h4]
    · by_cases h2 : c = a
      · subst h2; simp
      · have h3 : ¬ a ≤ c := by omega
        simp [h1, h2, h3]

theorem mem_insert {m : Memory} {a : Nat} {b : Byte} {c : Host.Cell} (h : c ∈ m.insert a b) :
    c = (a, b) ∨ c ∈ m := by
  induction m with
  | nil => simpa [insert] using h
  | cons p m ih =>
    obtain ⟨k, d⟩ := p
    simp only [insert] at h
    split at h
    · simpa using h
    · split at h
      · rcases List.mem_cons.1 h with h | h
        · exact .inl h
        · exact .inr (List.mem_cons_of_mem _ h)
      · rcases List.mem_cons.1 h with h | h
        · exact .inr (h ▸ List.mem_cons_self)
        · exact (ih h).imp id (List.mem_cons_of_mem _)

theorem wf_insert {m : Memory} (h : m.wf) (a : Nat) {b : Byte} (hb : b ≠ unlisted) :
    (m.insert a b).wf := by
  obtain ⟨hp, hv⟩ := h
  refine ⟨?_, fun c hc => (mem_insert hc).elim (fun e => e ▸ hb) (hv c)⟩
  clear hv
  induction m with
  | nil => simp [insert]
  | cons p m ih =>
    obtain ⟨k, d⟩ := p
    have hp' := List.pairwise_cons.1 hp
    simp only [insert]
    split
    · rename_i hak
      refine List.pairwise_cons.2 ⟨fun c hc => ?_, hp⟩
      rcases List.mem_cons.1 hc with rfl | hc
      · exact hak
      · exact lt_trans hak (hp'.1 c hc)
    · split
      · rename_i hak
        subst hak
        exact List.pairwise_cons.2 ⟨fun c hc => hp'.1 c hc, hp'.2⟩
      · rename_i h1 h2
        refine List.pairwise_cons.2 ⟨fun c hc => ?_, ih hp'.2⟩
        rcases mem_insert hc with rfl | hc
        · show k < a
          omega
        · exact hp'.1 c hc

theorem wf_erase {m : Memory} (h : m.wf) (a : Nat) : (m.erase a).wf :=
  ⟨h.1.filter _, fun c hc => h.2 c (List.mem_filter.1 hc).1⟩

/-- Every write keeps the canonical form. -/
theorem wf_write {m : Memory} (h : m.wf) (a : Nat) (b : Byte) : (m.write a b).wf := by
  simp only [write]
  split
  · exact wf_erase h a
  · exact wf_insert h a ‹_›

theorem wf_writeSlice {m : Memory} (h : m.wf) (a : Nat) (bs : List Byte) : (m.writeSlice a bs).wf := by
  induction bs generalizing m a with
  | nil => exact h
  | cons b bs ih => exact ih (wf_write h a b) (a + 1)

theorem wf_cleared (font : List Byte) : (cleared font).wf :=
  wf_writeSlice (m := []) ⟨List.Pairwise.nil, by simp⟩ 0 font

/-- A write lists no address but its own and those listed before. -/
theorem bounded_write {m : Memory} {n a : Nat} (h : ∀ c ∈ m, c.1 < n) (ha : a < n) (b : Byte) :
    ∀ c ∈ m.write a b, c.1 < n := by
  intro c hc
  simp only [write] at hc
  split at hc
  · exact h c (List.mem_filter.1 hc).1
  · exact (mem_insert hc).elim (fun e => e ▸ ha) (h c)

theorem bounded_writeSlice {m : Memory} {n a : Nat} {bs : List Byte} (h : ∀ c ∈ m, c.1 < n)
    (ha : a + bs.length ≤ n) : ∀ c ∈ m.writeSlice a bs, c.1 < n := by
  induction bs generalizing m a with
  | nil => exact h
  | cons b bs ih =>
    simp only [List.length_cons] at ha
    exact ih (bounded_write h (by omega) b) (by omega)

/-- A listed address reads as the byte listed for it. -/
theorem read_of_mem {m : Memory} (h : m.wf) {c : Host.Cell} (hc : c ∈ m) : m.read c.1 = c.2 := by
  induction m with
  | nil => cases hc
  | cons p m ih =>
    obtain ⟨k, d⟩ := p
    have hp := List.pairwise_cons.1 h.1
    simp only [read]
    rcases List.mem_cons.1 hc with rfl | hc
    · simp
    · have hk : c.1 ≠ k := Nat.ne_of_gt (hp.1 c hc)
      rw [if_neg hk]
      exact ih ⟨hp.2, fun c hc => h.2 c (List.mem_cons_of_mem _ hc)⟩ hc

/-- An address that is not listed reads as `unlisted`. -/
theorem read_of_not_mem {m : Memory} {a : Nat} (h : ∀ c ∈ m, c.1 ≠ a) : m.read a = unlisted := by
  induction m with
  | nil => rfl
  | cons p m ih =>
    obtain ⟨k, d⟩ := p
    have hk : a ≠ k := fun e => h (k, d) List.mem_cons_self e.symm
    simp only [read, if_neg hk]
    exact ih fun c hc => h c (List.mem_cons_of_mem _ hc)

end Sys2Proof.Machine.Memory
end

