-- ==== Sys2Proof/Laws/State.lean ====
section
/-! SUPPORT. One lemma per field per update of the state, each true by unfolding, so that no later proof
unfolds a record update. -/

namespace Sys2Proof.Machine.State

theorem getV_def (s : State) (r : Reg) : s.getV r = s.v[r] := rfl

/-- A state with the same register file reads the same registers. -/
theorem getV_congr {s t : State} (h : t.v = s.v) (r : Reg) : t.getV r = s.getV r := by
  simp [getV, h]

/-- A register reads back what was last written to it, and the others are untouched. -/
theorem getV_setV (s : State) (r q : Reg) (b : Byte) :
    (s.setV r b).getV q = if q = r then b else s.getV q := by
  simp only [getV, setV, Fin.getElem_fin, Vector.getElem_set, Fin.ext_iff, eq_comm]

@[simp] theorem getV_setV_self (s : State) (r : Reg) (b : Byte) : (s.setV r b).getV r = b := by
  simp [getV_setV]

theorem getV_setV_ne (s : State) {r q : Reg} (b : Byte) (h : q ≠ r) :
    (s.setV r b).getV q = s.getV q := by
  simp [getV_setV, h]


/-! `setV` -/

@[simp] theorem setV_params (s : State) (r : Reg) (b : Byte) : (s.setV r b).params = s.params := rfl
@[simp] theorem setV_v (s : State) (r : Reg) (b : Byte) : (s.setV r b).v = s.v.set r.val b r.isLt := rfl
@[simp] theorem setV_i (s : State) (r : Reg) (b : Byte) : (s.setV r b).i = s.i := rfl
@[simp] theorem setV_pc (s : State) (r : Reg) (b : Byte) : (s.setV r b).pc = s.pc := rfl
@[simp] theorem setV_sp (s : State) (r : Reg) (b : Byte) : (s.setV r b).sp = s.sp := rfl
@[simp] theorem setV_stack (s : State) (r : Reg) (b : Byte) : (s.setV r b).stack = s.stack := rfl
@[simp] theorem setV_dt (s : State) (r : Reg) (b : Byte) : (s.setV r b).dt = s.dt := rfl
@[simp] theorem setV_st (s : State) (r : Reg) (b : Byte) : (s.setV r b).st = s.st := rfl
@[simp] theorem setV_fb (s : State) (r : Reg) (b : Byte) : (s.setV r b).fb = s.fb := rfl
@[simp] theorem setV_changes (s : State) (r : Reg) (b : Byte) : (s.setV r b).changes = s.changes := rfl
@[simp] theorem setV_keys (s : State) (r : Reg) (b : Byte) : (s.setV r b).keys = s.keys := rfl
@[simp] theorem setV_fault (s : State) (r : Reg) (b : Byte) : (s.setV r b).fault = s.fault := rfl
@[simp] theorem setV_mem (s : State) (r : Reg) (b : Byte) : (s.setV r b).mem = s.mem := rfl
@[simp] theorem setV_draws (s : State) (r : Reg) (b : Byte) : (s.setV r b).draws = s.draws := rfl

/-! `advance` -/

@[simp] theorem advance_params (s : State) (k : Word) : (s.advance k).params = s.params := rfl
@[simp] theorem advance_v (s : State) (k : Word) : (s.advance k).v = s.v := rfl
@[simp] theorem advance_i (s : State) (k : Word) : (s.advance k).i = s.i := rfl
@[simp] theorem advance_pc (s : State) (k : Word) : (s.advance k).pc = s.pc + k := rfl
@[simp] theorem advance_sp (s : State) (k : Word) : (s.advance k).sp = s.sp := rfl
@[simp] theorem advance_stack (s : State) (k : Word) : (s.advance k).stack = s.stack := rfl
@[simp] theorem advance_dt (s : State) (k : Word) : (s.advance k).dt = s.dt := rfl
@[simp] theorem advance_st (s : State) (k : Word) : (s.advance k).st = s.st := rfl
@[simp] theorem advance_fb (s : State) (k : Word) : (s.advance k).fb = s.fb := rfl
@[simp] theorem advance_changes (s : State) (k : Word) : (s.advance k).changes = s.changes := rfl
@[simp] theorem advance_keys (s : State) (k : Word) : (s.advance k).keys = s.keys := rfl
@[simp] theorem advance_fault (s : State) (k : Word) : (s.advance k).fault = s.fault := rfl
@[simp] theorem advance_mem (s : State) (k : Word) : (s.advance k).mem = s.mem := rfl
@[simp] theorem advance_draws (s : State) (k : Word) : (s.advance k).draws = s.draws := rfl
@[simp] theorem getV_advance (s : State) (k : Word) (r : Reg) : (s.advance k).getV r = s.getV r := rfl

/-! `raise` -/

@[simp] theorem raise_params (s : State) (c : FaultCause) (w : Option Word) (info : Nat) : (s.raise c w info).params = s.params := rfl
@[simp] theorem raise_v (s : State) (c : FaultCause) (w : Option Word) (info : Nat) : (s.raise c w info).v = s.v := rfl
@[simp] theorem raise_i (s : State) (c : FaultCause) (w : Option Word) (info : Nat) : (s.raise c w info).i = s.i := rfl
@[simp] theorem raise_pc (s : State) (c : FaultCause) (w : Option Word) (info : Nat) : (s.raise c w info).pc = s.pc := rfl
@[simp] theorem raise_sp (s : State) (c : FaultCause) (w : Option Word) (info : Nat) : (s.raise c w info).sp = s.sp := rfl
@[simp] theorem raise_stack (s : State) (c : FaultCause) (w : Option Word) (info : Nat) : (s.raise c w info).stack = s.stack := rfl
@[simp] theorem raise_dt (s : State) (c : FaultCause) (w : Option Word) (info : Nat) : (s.raise c w info).dt = s.dt := rfl
@[simp] theorem raise_st (s : State) (c : FaultCause) (w : Option Word) (info : Nat) : (s.raise c w info).st = s.st := rfl
@[simp] theorem raise_fb (s : State) (c : FaultCause) (w : Option Word) (info : Nat) : (s.raise c w info).fb = s.fb := rfl
@[simp] theorem raise_changes (s : State) (c : FaultCause) (w : Option Word) (info : Nat) : (s.raise c w info).changes = s.changes := rfl
@[simp] theorem raise_keys (s : State) (c : FaultCause) (w : Option Word) (info : Nat) : (s.raise c w info).keys = s.keys := rfl
@[simp] theorem raise_fault (s : State) (c : FaultCause) (w : Option Word) (info : Nat) : (s.raise c w info).fault = some ⟨c, s.pc, w, info⟩ := rfl
@[simp] theorem raise_mem (s : State) (c : FaultCause) (w : Option Word) (info : Nat) : (s.raise c w info).mem = s.mem := rfl
@[simp] theorem raise_draws (s : State) (c : FaultCause) (w : Option Word) (info : Nat) : (s.raise c w info).draws = s.draws := rfl
@[simp] theorem getV_raise (s : State) (c : FaultCause) (w : Option Word) (info : Nat) (r : Reg) :
    (s.raise c w info).getV r = s.getV r := rfl

/-! `drawn` -/

@[simp] theorem drawn_params (s : State) : (s.drawn).params = s.params := rfl
@[simp] theorem drawn_v (s : State) : (s.drawn).v = s.v := rfl
@[simp] theorem drawn_i (s : State) : (s.drawn).i = s.i := rfl
@[simp] theorem drawn_pc (s : State) : (s.drawn).pc = s.pc := rfl
@[simp] theorem drawn_sp (s : State) : (s.drawn).sp = s.sp := rfl
@[simp] theorem drawn_stack (s : State) : (s.drawn).stack = s.stack := rfl
@[simp] theorem drawn_dt (s : State) : (s.drawn).dt = s.dt := rfl
@[simp] theorem drawn_st (s : State) : (s.drawn).st = s.st := rfl
@[simp] theorem drawn_fb (s : State) : (s.drawn).fb = s.fb := rfl
@[simp] theorem drawn_changes (s : State) : (s.drawn).changes = s.changes := rfl
@[simp] theorem drawn_keys (s : State) : (s.drawn).keys = s.keys := rfl
@[simp] theorem drawn_fault (s : State) : (s.drawn).fault = s.fault := rfl
@[simp] theorem drawn_mem (s : State) : (s.drawn).mem = s.mem := rfl
@[simp] theorem drawn_draws (s : State) : (s.drawn).draws = s.draws + 1 := rfl
@[simp] theorem getV_drawn (s : State) (r : Reg) : s.drawn.getV r = s.getV r := rfl

/-! `setKeyState` -/

@[simp] theorem setKeyState_params (s : State) (k : Key) (held : Bool) : (s.setKeyState k held).params = s.params := rfl
@[simp] theorem setKeyState_v (s : State) (k : Key) (held : Bool) : (s.setKeyState k held).v = s.v := rfl
@[simp] theorem setKeyState_i (s : State) (k : Key) (held : Bool) : (s.setKeyState k held).i = s.i := rfl
@[simp] theorem setKeyState_pc (s : State) (k : Key) (held : Bool) : (s.setKeyState k held).pc = s.pc := rfl
@[simp] theorem setKeyState_sp (s : State) (k : Key) (held : Bool) : (s.setKeyState k held).sp = s.sp := rfl
@[simp] theorem setKeyState_stack (s : State) (k : Key) (held : Bool) : (s.setKeyState k held).stack = s.stack := rfl
@[simp] theorem setKeyState_dt (s : State) (k : Key) (held : Bool) : (s.setKeyState k held).dt = s.dt := rfl
@[simp] theorem setKeyState_st (s : State) (k : Key) (held : Bool) : (s.setKeyState k held).st = s.st := rfl
@[simp] theorem setKeyState_fb (s : State) (k : Key) (held : Bool) : (s.setKeyState k held).fb = s.fb := rfl
@[simp] theorem setKeyState_changes (s : State) (k : Key) (held : Bool) : (s.setKeyState k held).changes = s.changes := rfl
@[simp] theorem setKeyState_keys (s : State) (k : Key) (held : Bool) : (s.setKeyState k held).keys = s.keys.set k.val held k.isLt := rfl
@[simp] theorem setKeyState_fault (s : State) (k : Key) (held : Bool) : (s.setKeyState k held).fault = s.fault := rfl
@[simp] theorem setKeyState_mem (s : State) (k : Key) (held : Bool) : (s.setKeyState k held).mem = s.mem := rfl
@[simp] theorem setKeyState_draws (s : State) (k : Key) (held : Bool) : (s.setKeyState k held).draws = s.draws := rfl
@[simp] theorem getV_setKeyState (s : State) (k : Key) (held : Bool) (r : Reg) :
    (s.setKeyState k held).getV r = s.getV r := rfl

/-! `updateTimers` -/

@[simp] theorem updateTimers_params (s : State) : (s.updateTimers).params = s.params := rfl
@[simp] theorem updateTimers_v (s : State) : (s.updateTimers).v = s.v := rfl
@[simp] theorem updateTimers_i (s : State) : (s.updateTimers).i = s.i := rfl
@[simp] theorem updateTimers_pc (s : State) : (s.updateTimers).pc = s.pc := rfl
@[simp] theorem updateTimers_sp (s : State) : (s.updateTimers).sp = s.sp := rfl
@[simp] theorem updateTimers_stack (s : State) : (s.updateTimers).stack = s.stack := rfl
@[simp] theorem updateTimers_dt (s : State) : (s.updateTimers).dt = if s.dt = 0 then s.dt else s.dt - 1 := rfl
@[simp] theorem updateTimers_st (s : State) : (s.updateTimers).st = if s.st = 0 then s.st else s.st - 1 := rfl
@[simp] theorem updateTimers_fb (s : State) : (s.updateTimers).fb = s.fb := rfl
@[simp] theorem updateTimers_changes (s : State) : (s.updateTimers).changes = s.changes := rfl
@[simp] theorem updateTimers_keys (s : State) : (s.updateTimers).keys = s.keys := rfl
@[simp] theorem updateTimers_fault (s : State) : (s.updateTimers).fault = s.fault := rfl
@[simp] theorem updateTimers_mem (s : State) : (s.updateTimers).mem = s.mem := rfl
@[simp] theorem updateTimers_draws (s : State) : (s.updateTimers).draws = s.draws := rfl
@[simp] theorem getV_updateTimers (s : State) (r : Reg) : s.updateTimers.getV r = s.getV r := rfl

/-! `goto` -/

@[simp] theorem goto_params (s : State) (a : Word) : (s.goto a).params = s.params := rfl
@[simp] theorem goto_v (s : State) (a : Word) : (s.goto a).v = s.v := rfl
@[simp] theorem goto_i (s : State) (a : Word) : (s.goto a).i = s.i := rfl
@[simp] theorem goto_pc (s : State) (a : Word) : (s.goto a).pc = a := rfl
@[simp] theorem goto_sp (s : State) (a : Word) : (s.goto a).sp = s.sp := rfl
@[simp] theorem goto_stack (s : State) (a : Word) : (s.goto a).stack = s.stack := rfl
@[simp] theorem goto_dt (s : State) (a : Word) : (s.goto a).dt = s.dt := rfl
@[simp] theorem goto_st (s : State) (a : Word) : (s.goto a).st = s.st := rfl
@[simp] theorem goto_fb (s : State) (a : Word) : (s.goto a).fb = s.fb := rfl
@[simp] theorem goto_changes (s : State) (a : Word) : (s.goto a).changes = s.changes := rfl
@[simp] theorem goto_keys (s : State) (a : Word) : (s.goto a).keys = s.keys := rfl
@[simp] theorem goto_fault (s : State) (a : Word) : (s.goto a).fault = s.fault := rfl
@[simp] theorem goto_mem (s : State) (a : Word) : (s.goto a).mem = s.mem := rfl
@[simp] theorem goto_draws (s : State) (a : Word) : (s.goto a).draws = s.draws := rfl
@[simp] theorem getV_goto (s : State) (a : Word) (r : Reg) : (s.goto a).getV r = s.getV r := rfl

/-! `setI` -/

@[simp] theorem setI_params (s : State) (a : Word) : (s.setI a).params = s.params := rfl
@[simp] theorem setI_v (s : State) (a : Word) : (s.setI a).v = s.v := rfl
@[simp] theorem setI_i (s : State) (a : Word) : (s.setI a).i = a := rfl
@[simp] theorem setI_pc (s : State) (a : Word) : (s.setI a).pc = s.pc := rfl
@[simp] theorem setI_sp (s : State) (a : Word) : (s.setI a).sp = s.sp := rfl
@[simp] theorem setI_stack (s : State) (a : Word) : (s.setI a).stack = s.stack := rfl
@[simp] theorem setI_dt (s : State) (a : Word) : (s.setI a).dt = s.dt := rfl
@[simp] theorem setI_st (s : State) (a : Word) : (s.setI a).st = s.st := rfl
@[simp] theorem setI_fb (s : State) (a : Word) : (s.setI a).fb = s.fb := rfl
@[simp] theorem setI_changes (s : State) (a : Word) : (s.setI a).changes = s.changes := rfl
@[simp] theorem setI_keys (s : State) (a : Word) : (s.setI a).keys = s.keys := rfl
@[simp] theorem setI_fault (s : State) (a : Word) : (s.setI a).fault = s.fault := rfl
@[simp] theorem setI_mem (s : State) (a : Word) : (s.setI a).mem = s.mem := rfl
@[simp] theorem setI_draws (s : State) (a : Word) : (s.setI a).draws = s.draws := rfl
@[simp] theorem getV_setI (s : State) (a : Word) (r : Reg) : (s.setI a).getV r = s.getV r := rfl

/-! `setDt` -/

@[simp] theorem setDt_params (s : State) (a : Byte) : (s.setDt a).params = s.params := rfl
@[simp] theorem setDt_v (s : State) (a : Byte) : (s.setDt a).v = s.v := rfl
@[simp] theorem setDt_i (s : State) (a : Byte) : (s.setDt a).i = s.i := rfl
@[simp] theorem setDt_pc (s : State) (a : Byte) : (s.setDt a).pc = s.pc := rfl
@[simp] theorem setDt_sp (s : State) (a : Byte) : (s.setDt a).sp = s.sp := rfl
@[simp] theorem setDt_stack (s : State) (a : Byte) : (s.setDt a).stack = s.stack := rfl
@[simp] theorem setDt_dt (s : State) (a : Byte) : (s.setDt a).dt = a := rfl
@[simp] theorem setDt_st (s : State) (a : Byte) : (s.setDt a).st = s.st := rfl
@[simp] theorem setDt_fb (s : State) (a : Byte) : (s.setDt a).fb = s.fb := rfl
@[simp] theorem setDt_changes (s : State) (a : Byte) : (s.setDt a).changes = s.changes := rfl
@[simp] theorem setDt_keys (s : State) (a : Byte) : (s.setDt a).keys = s.keys := rfl
@[simp] theorem setDt_fault (s : State) (a : Byte) : (s.setDt a).fault = s.fault := rfl
@[simp] theorem setDt_mem (s : State) (a : Byte) : (s.setDt a).mem = s.mem := rfl
@[simp] theorem setDt_draws (s : State) (a : Byte) : (s.setDt a).draws = s.draws := rfl
@[simp] theorem getV_setDt (s : State) (a : Byte) (r : Reg) : (s.setDt a).getV r = s.getV r := rfl

/-! `setSt` -/

@[simp] theorem setSt_params (s : State) (a : Byte) : (s.setSt a).params = s.params := rfl
@[simp] theorem setSt_v (s : State) (a : Byte) : (s.setSt a).v = s.v := rfl
@[simp] theorem setSt_i (s : State) (a : Byte) : (s.setSt a).i = s.i := rfl
@[simp] theorem setSt_pc (s : State) (a : Byte) : (s.setSt a).pc = s.pc := rfl
@[simp] theorem setSt_sp (s : State) (a : Byte) : (s.setSt a).sp = s.sp := rfl
@[simp] theorem setSt_stack (s : State) (a : Byte) : (s.setSt a).stack = s.stack := rfl
@[simp] theorem setSt_dt (s : State) (a : Byte) : (s.setSt a).dt = s.dt := rfl
@[simp] theorem setSt_st (s : State) (a : Byte) : (s.setSt a).st = a := rfl
@[simp] theorem setSt_fb (s : State) (a : Byte) : (s.setSt a).fb = s.fb := rfl
@[simp] theorem setSt_changes (s : State) (a : Byte) : (s.setSt a).changes = s.changes := rfl
@[simp] theorem setSt_keys (s : State) (a : Byte) : (s.setSt a).keys = s.keys := rfl
@[simp] theorem setSt_fault (s : State) (a : Byte) : (s.setSt a).fault = s.fault := rfl
@[simp] theorem setSt_mem (s : State) (a : Byte) : (s.setSt a).mem = s.mem := rfl
@[simp] theorem setSt_draws (s : State) (a : Byte) : (s.setSt a).draws = s.draws := rfl
@[simp] theorem getV_setSt (s : State) (a : Byte) (r : Reg) : (s.setSt a).getV r = s.getV r := rfl

/-! `setChanges` -/

@[simp] theorem setChanges_params (s : State) (a : Option Damage) : (s.setChanges a).params = s.params := rfl
@[simp] theorem setChanges_v (s : State) (a : Option Damage) : (s.setChanges a).v = s.v := rfl
@[simp] theorem setChanges_i (s : State) (a : Option Damage) : (s.setChanges a).i = s.i := rfl
@[simp] theorem setChanges_pc (s : State) (a : Option Damage) : (s.setChanges a).pc = s.pc := rfl
@[simp] theorem setChanges_sp (s : State) (a : Option Damage) : (s.setChanges a).sp = s.sp := rfl
@[simp] theorem setChanges_stack (s : State) (a : Option Damage) : (s.setChanges a).stack = s.stack := rfl
@[simp] theorem setChanges_dt (s : State) (a : Option Damage) : (s.setChanges a).dt = s.dt := rfl
@[simp] theorem setChanges_st (s : State) (a : Option Damage) : (s.setChanges a).st = s.st := rfl
@[simp] theorem setChanges_fb (s : State) (a : Option Damage) : (s.setChanges a).fb = s.fb := rfl
@[simp] theorem setChanges_changes (s : State) (a : Option Damage) : (s.setChanges a).changes = a := rfl
@[simp] theorem setChanges_keys (s : State) (a : Option Damage) : (s.setChanges a).keys = s.keys := rfl
@[simp] theorem setChanges_fault (s : State) (a : Option Damage) : (s.setChanges a).fault = s.fault := rfl
@[simp] theorem setChanges_mem (s : State) (a : Option Damage) : (s.setChanges a).mem = s.mem := rfl
@[simp] theorem setChanges_draws (s : State) (a : Option Damage) : (s.setChanges a).draws = s.draws := rfl
@[simp] theorem getV_setChanges (s : State) (a : Option Damage) (r : Reg) : (s.setChanges a).getV r = s.getV r := rfl

/-! `setFb` -/

@[simp] theorem setFb_params (s : State) (a : Framebuffer) : (s.setFb a).params = s.params := rfl
@[simp] theorem setFb_v (s : State) (a : Framebuffer) : (s.setFb a).v = s.v := rfl
@[simp] theorem setFb_i (s : State) (a : Framebuffer) : (s.setFb a).i = s.i := rfl
@[simp] theorem setFb_pc (s : State) (a : Framebuffer) : (s.setFb a).pc = s.pc := rfl
@[simp] theorem setFb_sp (s : State) (a : Framebuffer) : (s.setFb a).sp = s.sp := rfl
@[simp] theorem setFb_stack (s : State) (a : Framebuffer) : (s.setFb a).stack = s.stack := rfl
@[simp] theorem setFb_dt (s : State) (a : Framebuffer) : (s.setFb a).dt = s.dt := rfl
@[simp] theorem setFb_st (s : State) (a : Framebuffer) : (s.setFb a).st = s.st := rfl
@[simp] theorem setFb_fb (s : State) (a : Framebuffer) : (s.setFb a).fb = a := rfl
@[simp] theorem setFb_changes (s : State) (a : Framebuffer) : (s.setFb a).changes = s.changes := rfl
@[simp] theorem setFb_keys (s : State) (a : Framebuffer) : (s.setFb a).keys = s.keys := rfl
@[simp] theorem setFb_fault (s : State) (a : Framebuffer) : (s.setFb a).fault = s.fault := rfl
@[simp] theorem setFb_mem (s : State) (a : Framebuffer) : (s.setFb a).mem = s.mem := rfl
@[simp] theorem setFb_draws (s : State) (a : Framebuffer) : (s.setFb a).draws = s.draws := rfl
@[simp] theorem getV_setFb (s : State) (a : Framebuffer) (r : Reg) : (s.setFb a).getV r = s.getV r := rfl

/-! `setMem` -/

@[simp] theorem setMem_params (s : State) (a : Memory) : (s.setMem a).params = s.params := rfl
@[simp] theorem setMem_v (s : State) (a : Memory) : (s.setMem a).v = s.v := rfl
@[simp] theorem setMem_i (s : State) (a : Memory) : (s.setMem a).i = s.i := rfl
@[simp] theorem setMem_pc (s : State) (a : Memory) : (s.setMem a).pc = s.pc := rfl
@[simp] theorem setMem_sp (s : State) (a : Memory) : (s.setMem a).sp = s.sp := rfl
@[simp] theorem setMem_stack (s : State) (a : Memory) : (s.setMem a).stack = s.stack := rfl
@[simp] theorem setMem_dt (s : State) (a : Memory) : (s.setMem a).dt = s.dt := rfl
@[simp] theorem setMem_st (s : State) (a : Memory) : (s.setMem a).st = s.st := rfl
@[simp] theorem setMem_fb (s : State) (a : Memory) : (s.setMem a).fb = s.fb := rfl
@[simp] theorem setMem_changes (s : State) (a : Memory) : (s.setMem a).changes = s.changes := rfl
@[simp] theorem setMem_keys (s : State) (a : Memory) : (s.setMem a).keys = s.keys := rfl
@[simp] theorem setMem_fault (s : State) (a : Memory) : (s.setMem a).fault = s.fault := rfl
@[simp] theorem setMem_mem (s : State) (a : Memory) : (s.setMem a).mem = a := rfl
@[simp] theorem setMem_draws (s : State) (a : Memory) : (s.setMem a).draws = s.draws := rfl
@[simp] theorem getV_setMem (s : State) (a : Memory) (r : Reg) : (s.setMem a).getV r = s.getV r := rfl

/-! `skipIf` and `setVs` -/

@[simp] theorem skipIf_params (s : State) (c : Bool) : (s.skipIf c).params = s.params := by
  cases c <;> rfl
@[simp] theorem skipIf_v (s : State) (c : Bool) : (s.skipIf c).v = s.v := by
  cases c <;> rfl
@[simp] theorem skipIf_i (s : State) (c : Bool) : (s.skipIf c).i = s.i := by
  cases c <;> rfl
@[simp] theorem skipIf_pc (s : State) (c : Bool) :
    (s.skipIf c).pc = s.pc + (if c then 4 else 2) := by
  cases c <;> rfl
@[simp] theorem skipIf_sp (s : State) (c : Bool) : (s.skipIf c).sp = s.sp := by
  cases c <;> rfl
@[simp] theorem skipIf_stack (s : State) (c : Bool) : (s.skipIf c).stack = s.stack := by
  cases c <;> rfl
@[simp] theorem skipIf_dt (s : State) (c : Bool) : (s.skipIf c).dt = s.dt := by
  cases c <;> rfl
@[simp] theorem skipIf_st (s : State) (c : Bool) : (s.skipIf c).st = s.st := by
  cases c <;> rfl
@[simp] theorem skipIf_fb (s : State) (c : Bool) : (s.skipIf c).fb = s.fb := by
  cases c <;> rfl
@[simp] theorem skipIf_changes (s : State) (c : Bool) : (s.skipIf c).changes = s.changes := by
  cases c <;> rfl
@[simp] theorem skipIf_keys (s : State) (c : Bool) : (s.skipIf c).keys = s.keys := by
  cases c <;> rfl
@[simp] theorem skipIf_fault (s : State) (c : Bool) : (s.skipIf c).fault = s.fault := by
  cases c <;> rfl
@[simp] theorem skipIf_mem (s : State) (c : Bool) : (s.skipIf c).mem = s.mem := by
  cases c <;> rfl
@[simp] theorem skipIf_draws (s : State) (c : Bool) : (s.skipIf c).draws = s.draws := by
  cases c <;> rfl
@[simp] theorem getV_skipIf (s : State) (c : Bool) (r : Reg) : (s.skipIf c).getV r = s.getV r := by
  cases c <;> rfl
@[simp] theorem setVs_params (s : State) (l : List (Reg × Byte)) : (s.setVs l).params = s.params := by
  induction l generalizing s with
  | nil => rfl
  | cons p l ih => exact ih (s.setV p.1 p.2)
@[simp] theorem setVs_i (s : State) (l : List (Reg × Byte)) : (s.setVs l).i = s.i := by
  induction l generalizing s with
  | nil => rfl
  | cons p l ih => exact ih (s.setV p.1 p.2)
@[simp] theorem setVs_pc (s : State) (l : List (Reg × Byte)) : (s.setVs l).pc = s.pc := by
  induction l generalizing s with
  | nil => rfl
  | cons p l ih => exact ih (s.setV p.1 p.2)
@[simp] theorem setVs_sp (s : State) (l : List (Reg × Byte)) : (s.setVs l).sp = s.sp := by
  induction l generalizing s with
  | nil => rfl
  | cons p l ih => exact ih (s.setV p.1 p.2)
@[simp] theorem setVs_stack (s : State) (l : List (Reg × Byte)) : (s.setVs l).stack = s.stack := by
  induction l generalizing s with
  | nil => rfl
  | cons p l ih => exact ih (s.setV p.1 p.2)
@[simp] theorem setVs_dt (s : State) (l : List (Reg × Byte)) : (s.setVs l).dt = s.dt := by
  induction l generalizing s with
  | nil => rfl
  | cons p l ih => exact ih (s.setV p.1 p.2)
@[simp] theorem setVs_st (s : State) (l : List (Reg × Byte)) : (s.setVs l).st = s.st := by
  induction l generalizing s with
  | nil => rfl
  | cons p l ih => exact ih (s.setV p.1 p.2)
@[simp] theorem setVs_fb (s : State) (l : List (Reg × Byte)) : (s.setVs l).fb = s.fb := by
  induction l generalizing s with
  | nil => rfl
  | cons p l ih => exact ih (s.setV p.1 p.2)
@[simp] theorem setVs_changes (s : State) (l : List (Reg × Byte)) : (s.setVs l).changes = s.changes := by
  induction l generalizing s with
  | nil => rfl
  | cons p l ih => exact ih (s.setV p.1 p.2)
@[simp] theorem setVs_keys (s : State) (l : List (Reg × Byte)) : (s.setVs l).keys = s.keys := by
  induction l generalizing s with
  | nil => rfl
  | cons p l ih => exact ih (s.setV p.1 p.2)
@[simp] theorem setVs_fault (s : State) (l : List (Reg × Byte)) : (s.setVs l).fault = s.fault := by
  induction l generalizing s with
  | nil => rfl
  | cons p l ih => exact ih (s.setV p.1 p.2)
@[simp] theorem setVs_mem (s : State) (l : List (Reg × Byte)) : (s.setVs l).mem = s.mem := by
  induction l generalizing s with
  | nil => rfl
  | cons p l ih => exact ih (s.setV p.1 p.2)
@[simp] theorem setVs_draws (s : State) (l : List (Reg × Byte)) : (s.setVs l).draws = s.draws := by
  induction l generalizing s with
  | nil => rfl
  | cons p l ih => exact ih (s.setV p.1 p.2)

/-- Registers not named in the list keep their value. -/
theorem getV_setVs_of_not_mem (s : State) (l : List (Reg × Byte)) (q : Reg)
    (h : q ∉ l.map Prod.fst) : (s.setVs l).getV q = s.getV q := by
  induction l generalizing s with
  | nil => rfl
  | cons p l ih =>
    simp only [List.map_cons, List.mem_cons, not_or] at h
    exact (ih (s.setV p.1 p.2) h.2).trans (getV_setV_ne s p.2 h.1)

/-- `KEYS[k]` after a key is set or released. -/
theorem keyHeld_setKeyState (s : State) (k q : Key) (held : Bool) :
    (s.setKeyState k held).keyHeld q = if q = k then held else s.keyHeld q := by
  simp only [keyHeld, setKeyState, Fin.getElem_fin, Vector.getElem_set, Fin.ext_iff, eq_comm]

/-! Reset (10_state.md R38). -/


@[simp] theorem powerOn_params (p : Params) (d : Nat) : (powerOn p d).params = p := rfl
@[simp] theorem powerOn_v (p : Params) (d : Nat) : (powerOn p d).v = Vector.replicate 16 0 := rfl
@[simp] theorem powerOn_i (p : Params) (d : Nat) : (powerOn p d).i = 0 := rfl
@[simp] theorem powerOn_pc (p : Params) (d : Nat) : (powerOn p d).pc = BitVec.ofNat 16 p.loadAddr := rfl
@[simp] theorem powerOn_sp (p : Params) (d : Nat) : (powerOn p d).sp = 0 := rfl
@[simp] theorem powerOn_stack (p : Params) (d : Nat) : (powerOn p d).stack = Vector.replicate 16 0 := rfl
@[simp] theorem powerOn_dt (p : Params) (d : Nat) : (powerOn p d).dt = 0 := rfl
@[simp] theorem powerOn_st (p : Params) (d : Nat) : (powerOn p d).st = 0 := rfl
@[simp] theorem powerOn_fb (p : Params) (d : Nat) : (powerOn p d).fb = Framebuffer.blank := rfl
@[simp] theorem powerOn_changes (p : Params) (d : Nat) : (powerOn p d).changes = none := rfl
@[simp] theorem powerOn_keys (p : Params) (d : Nat) : (powerOn p d).keys = Vector.replicate 16 false := rfl
@[simp] theorem powerOn_fault (p : Params) (d : Nat) : (powerOn p d).fault = none := rfl
@[simp] theorem powerOn_mem (p : Params) (d : Nat) : (powerOn p d).mem = Memory.cleared p.fontImage := rfl
@[simp] theorem powerOn_draws (p : Params) (d : Nat) : (powerOn p d).draws = d := rfl

end Sys2Proof.Machine.State
end

