-- ==== Sys2Proof/Laws/Ops.lean ====
section
/-! SUPPORT. What each shared operation can do, said once: memory accesses, the fetch, the call stack, the
key latch, the register range and the framebuffer. -/

namespace Sys2Proof.Machine

namespace State

/-! Byte reads -/

theorem memRead_ok {s : State} {a : Nat} (h : a < s.params.memSize) :
    s.memRead a = .ok (s.mem.read a) := if_pos h

theorem memRead_error {s : State} {a : Nat} (h : s.params.memSize ≤ a) : s.memRead a = .error a :=
  if_neg (Nat.not_lt.2 h)

/-- Reads that stay in memory give the bytes from `a` upward. -/
theorem memReads_ok {s : State} {a n : Nat} (h : a + n ≤ s.params.memSize ∨ n = 0) :
    s.memReads a n = .ok ((List.range n).map (fun k => s.mem.read (a + k))) := by
  induction n generalizing a with
  | zero => rfl
  | succ n ih =>
    have hn : a + (n + 1) ≤ s.params.memSize := h.resolve_right (Nat.succ_ne_zero n)
    rw [memReads, memRead_ok (by omega)]
    rw [ih (.inl (by omega))]
    simp only [List.range_succ_eq_map, List.map_cons, List.map_map, Nat.add_zero]
    congr 2
    apply List.map_congr_left
    intro k _
    simp only [Function.comp_apply, Nat.succ_eq_add_one]
    congr 1
    omega

/-- Reads that leave memory fail at the lowest address that is not in it. -/
theorem memReads_error {s : State} {a n : Nat} (h : s.params.memSize < a + n) (hn : 0 < n) :
    s.memReads a n = .error (max a s.params.memSize) := by
  induction n generalizing a with
  | zero => omega
  | succ n ih =>
    rw [memReads]
    by_cases ha : a < s.params.memSize
    · rw [memRead_ok ha]
      rw [ih (by omega) (by omega)]
      simp only
      congr 1
      omega
    · rw [memRead_error (by omega)]
      simp only
      congr 1
      omega

/-! Byte writes -/

theorem writable_iff (s : State) (a : Nat) :
    s.writable a = true ↔
      a < s.params.memSize ∧ (s.params.loadAddr ≤ a ∨ s.params.reservedWrite = .perform) := by
  simp [writable]

/-- Writes to addresses that may all be written land, and change memory alone. -/
theorem memWrites_ok {s : State} {a : Nat} {bs : List Byte}
    (h : ∀ k, k < bs.length → s.writable (a + k) = true) :
    s.memWrites a bs = .ok (s.setMem (s.mem.writeSlice a bs)) := by
  induction bs generalizing s a with
  | nil => rfl
  | cons b bs ih =>
    have h0 : s.writable a = true := by simpa using h 0 (by simp)
    rw [memWrites, memWrite, if_pos h0]
    have hs : ∀ k, k < bs.length →
        (s.setMem (s.mem.write a b)).writable (a + 1 + k) = true := by
      intro k hk
      have := h (k + 1) (by simpa using hk)
      rwa [show a + (k + 1) = a + 1 + k by omega] at this
    exact ih hs

/-- Writes fail at the lowest address that may not be written. -/
theorem memWrites_error {s : State} {a k : Nat} {bs : List Byte} (hk : k < bs.length)
    (hbad : s.writable (a + k) = false) (hlow : ∀ j, j < k → s.writable (a + j) = true) :
    s.memWrites a bs = .error (a + k) := by
  induction bs generalizing s a k with
  | nil => simp at hk
  | cons b bs ih =>
    rw [memWrites, memWrite]
    cases k with
    | zero =>
      rw [Nat.add_zero] at hbad
      rw [if_neg (by simp [hbad])]
      rfl
    | succ k =>
      have h0 : s.writable a = true := by simpa using hlow 0 (by omega)
      rw [if_pos h0]
      simp only
      have e : a + (k + 1) = a + 1 + k := by omega
      rw [ih (k := k) (by simpa using hk), e]
      · show s.writable _ = _
        rw [← e]; exact hbad
      · intro j hj
        show s.writable _ = _
        have := hlow (j + 1) (by omega)
        rwa [show a + (j + 1) = a + 1 + j by omega] at this

/-- Either every byte of a list of writes may be written, or there is a lowest one that may not. -/
theorem memWrites_cases (s : State) (a : Nat) (bs : List Byte) :
    (∀ k, k < bs.length → s.writable (a + k) = true) ∨
      ∃ k, k < bs.length ∧ s.writable (a + k) = false ∧ ∀ j, j < k → s.writable (a + j) = true := by
  by_cases h : ∀ k, k < bs.length → s.writable (a + k) = true
  · exact .inl h
  · refine .inr ?_
    push Not at h
    classical
    obtain ⟨hl, hb⟩ := Nat.find_spec h
    refine ⟨Nat.find h, hl, by simpa using hb, fun j hj => ?_⟩
    have := Nat.find_min h hj
    push Not at this
    simpa using this (by omega)

/-! Fetch (20_memory.md R57) -/

theorem fetch_ok {s : State} (h : s.pc.toNat + 1 < s.params.memSize) :
    s.fetch = .ok (wordOfBytes (s.mem.read s.pc.toNat) (s.mem.read (s.pc.toNat + 1))) := by
  rw [fetch, memRead_ok (by omega), memRead_ok h]

theorem fetch_error {s : State} (h : s.params.memSize ≤ s.pc.toNat + 1) :
    s.fetch = .error (max s.pc.toNat s.params.memSize) := by
  rw [fetch]
  by_cases h1 : s.pc.toNat < s.params.memSize
  · rw [memRead_ok h1, memRead_error h]
    simp only
    congr 1
    omega
  · rw [memRead_error (by omega)]
    simp only
    congr 1
    omega

/-! The call stack (10_state.md R26, R27) -/

theorem push_some {s : State} {w : Word} (h : s.sp.val < 16) :
    s.push w = some { s with stack := s.stack.set s.sp.val w h, sp := ⟨s.sp.val + 1, by omega⟩ } :=
  dif_pos h

theorem push_none {s : State} {w : Word} (h : s.sp.val = 16) : s.push w = none :=
  dif_neg (by omega)

theorem pop_some {s : State} (h : 0 < s.sp.val) :
    s.pop = some ({ s with sp := ⟨s.sp.val - 1, by omega⟩ },
      s.stack[s.sp.val - 1]'(by have := s.sp.isLt; omega)) :=
  dif_pos h

theorem pop_none {s : State} (h : s.sp.val = 0) : s.pop = none := dif_neg (by omega)

/-! The key latch (44_keyboard.md R203) -/

/-- A list in rising order finds its least element that passes. -/
theorem find_sorted {n : Nat} {p : Fin n → Bool} {l : List (Fin n)} (hl : l.Pairwise (· < ·))
    {k : Fin n} (hk : k ∈ l) (hp : p k = true) (hlow : ∀ j ∈ l, j < k → p j = false) :
    l.find? p = some k := by
  induction l with
  | nil => cases hk
  | cons a l ih =>
    obtain ⟨ha, hl'⟩ := List.pairwise_cons.1 hl
    rcases List.mem_cons.1 hk with rfl | hk'
    · simp [hp]
    · have : p a = false := hlow a List.mem_cons_self (ha k hk')
      simp only [List.find?_cons, this]
      exact ih hl' hk' fun j hj => hlow j (List.mem_cons_of_mem _ hj)

/-- `GetPressed()` gives the lowest held key. -/
theorem getPressed_some {s : State} {k : Key} (h : s.keyHeld k = true)
    (hlow : ∀ j, j < k → s.keyHeld j = false) : s.getPressed = some k :=
  find_sorted (List.pairwise_lt_finRange 16) (List.mem_finRange k) h fun j _ => hlow j

/-- `GetPressed()` gives nothing when no key is held. -/
theorem getPressed_none {s : State} (h : ∀ k, s.keyHeld k = false) : s.getPressed = none := by
  simp [getPressed, h]

theorem keyHeld_of_getPressed {s : State} {k : Key} (h : s.getPressed = some k) :
    s.keyHeld k = true := List.find?_some h

/-! Register ranges (30_encoding.md R73) -/

/-- Pairs over distinct registers give each register its own byte. -/
theorem getV_setVs_of_mem {s : State} {l : List (Reg × Byte)} {r : Reg} {b : Byte}
    (hl : (l.map Prod.fst).Nodup) (h : (r, b) ∈ l) : (s.setVs l).getV r = b := by
  induction l generalizing s with
  | nil => cases h
  | cons p l ih =>
    obtain ⟨hn, hl'⟩ := List.nodup_cons.1 hl
    rcases List.mem_cons.1 h with rfl | h
    · exact (getV_setVs_of_not_mem (s.setV r b) l r hn).trans (getV_setV_self s r b)
    · exact ih hl' h

end State

theorem regsUpTo_length (x : Reg) : (regsUpTo x).length = x.val + 1 := by
  simp only [regsUpTo, List.length_take, List.length_finRange]
  omega

theorem regsUpTo_getElem (x : Reg) (k : Nat) (h : k < (regsUpTo x).length) :
    (regsUpTo x)[k] = ⟨k, by have := regsUpTo_length x; omega⟩ := by
  simp [regsUpTo]

theorem mem_regsUpTo (x r : Reg) : r ∈ regsUpTo x ↔ r ≤ x := by
  rw [List.mem_iff_getElem]
  constructor
  · rintro ⟨k, hk, e⟩
    rw [regsUpTo_getElem] at e
    have := regsUpTo_length x
    rw [← e, Fin.le_def]
    simp only
    omega
  · intro h
    refine ⟨r.val, by rw [regsUpTo_length]; rw [Fin.le_def] at h; omega, ?_⟩
    rw [regsUpTo_getElem]

theorem regsUpTo_nodup (x : Reg) : (regsUpTo x).Nodup :=
  (List.nodup_finRange 16).sublist (List.take_sublist _ _)

/-! Keys named by a register (44_keyboard.md R204) -/

theorem keyOf_some {b : Byte} (h : b.toNat < 16) : keyOf b = some ⟨b.toNat, h⟩ := dif_pos h

theorem keyOf_none {b : Byte} (h : 15 < b.toNat) : keyOf b = none := dif_neg (by omega)

/-! Pixels (43_display.md R171) -/

theorem Framebuffer.get_put (fb : Framebuffer) (r q : Fin 32) (c d : Fin 64) (p : Bool) :
    (fb.put r c p).get q d = if q = r ∧ d = c then p else fb.get q d := by
  simp only [Framebuffer.get, Framebuffer.put, Fin.getElem_fin, Vector.getElem_set]
  by_cases h : r = q
  · subst h
    simp only [if_true, Vector.getElem_set, true_and, Fin.ext_iff, eq_comm]
  · have h1 : r.val ≠ q.val := fun e => h (Fin.ext e)
    have h2 : ¬(q = r ∧ d = c) := fun e => h e.1.symm
    simp [h1, h2]

@[simp] theorem Framebuffer.get_blank (r : Fin 32) (c : Fin 64) : Framebuffer.blank.get r c = false := by
  simp [Framebuffer.get, Framebuffer.blank]

/-- Two framebuffers with the same pixels are the same. -/
theorem Framebuffer.ext_get {f g : Framebuffer} (h : ∀ r c, f.get r c = g.get r c) : f = g := by
  apply Vector.ext
  intro r hr
  apply Vector.ext
  intro c hc
  exact h ⟨r, hr⟩ ⟨c, hc⟩

end Sys2Proof.Machine
end

