-- ==== Sys2Proof/Laws/Display.lean ====
section
/-! SUPPORT. What the sprite engine does to each pixel, said once (spec/43_display.md R171, R174): a sprite has
at most 15 rows of 8 bits, so no two of its bits land on one pixel, and every pixel becomes its old value XOR
the sprite's bit there. -/

namespace Sys2Proof.Machine

/-- The draws of one pixel each, one after another. -/
def drawPixels (ps : List ((Fin 32 × Fin 64) × Bool)) (acc : Framebuffer × Bool) : Framebuffer × Bool :=
  ps.foldl (fun acc p => drawPixel acc p.1.1 p.1.2 p.2) acc

/-- Some draw of the list sets its bit at this pixel. -/
def Hits (ps : List ((Fin 32 × Fin 64) × Bool)) (r : Fin 32) (c : Fin 64) : Prop := ((r, c), true) ∈ ps

/-- Draws at distinct pixels XOR each into its own, and collide where a set bit meets a lit pixel. -/
theorem drawPixels_spec (ps : List ((Fin 32 × Fin 64) × Bool)) (acc : Framebuffer × Bool)
    (hd : (ps.map Prod.fst).Nodup) :
    (∀ r c, (drawPixels ps acc).1.get r c = true ↔ ¬(acc.1.get r c = true ↔ Hits ps r c)) ∧
    ((drawPixels ps acc).2 = true ↔
      acc.2 = true ∨ ∃ r c, acc.1.get r c = true ∧ Hits ps r c) := by
  induction ps generalizing acc with
  | nil => simp [drawPixels, Hits]
  | cons p ps ih =>
    obtain ⟨⟨r0, c0⟩, b⟩ := p
    obtain ⟨hn, hd'⟩ := List.nodup_cons.1 hd
    have h0 : ∀ v, ((r0, c0), v) ∉ ps := fun v hv => hn (List.mem_map.2 ⟨_, hv, rfl⟩)
    obtain ⟨hp, hc⟩ := ih (drawPixel acc r0 c0 b) hd'
    have hfold : drawPixels (((r0, c0), b) :: ps) acc = drawPixels ps (drawPixel acc r0 c0 b) := rfl
    rw [hfold]
    constructor
    · intro r c
      rw [hp r c]
      simp only [drawPixel, Framebuffer.get_put, Hits, List.mem_cons, Prod.mk.injEq]
      by_cases e : r = r0 ∧ c = c0
      · obtain ⟨rfl, rfl⟩ := e
        cases hb : b <;> cases hg : acc.1.get r c <;> simp [h0]
      · simp [e]
    · rw [hc]
      simp only [drawPixel, Framebuffer.get_put, Hits, List.mem_cons, Prod.mk.injEq, Bool.or_eq_true,
        Bool.and_eq_true, or_assoc]
      refine or_congr_right ?_
      constructor
      · rintro (⟨ho, hb⟩ | ⟨r, c, hg, hm⟩)
        · exact ⟨r0, c0, ho, .inl ⟨⟨rfl, rfl⟩, hb.symm⟩⟩
        · have e : ¬(r = r0 ∧ c = c0) := by rintro ⟨rfl, rfl⟩; exact h0 _ hm
          exact ⟨r, c, by simpa [e] using hg, .inr hm⟩
      · rintro ⟨r, c, hg, ⟨⟨rfl, rfl⟩, hb⟩ | hm⟩
        · exact .inl ⟨hg, hb.symm⟩
        · have e : ¬(r = r0 ∧ c = c0) := by rintro ⟨rfl, rfl⟩; exact h0 _ hm
          exact .inr ⟨r, c, by simpa [e] using hg, hm⟩

/-- The pixel draws of one sprite row. -/
def rowPixels (xv yv : Byte) (row : Nat) (b : Byte) : List ((Fin 32 × Fin 64) × Bool) :=
  (List.range 8).map fun bit => ((spriteRow yv row, spriteCol xv bit), spriteBit b bit)

/-- The pixel draws of the sprite rows from number `row` on. -/
def spritePixels (xv yv : Byte) : Nat → List Byte → List ((Fin 32 × Fin 64) × Bool)
  | _, [] => []
  | row, b :: bs => rowPixels xv yv row b ++ spritePixels xv yv (row + 1) bs

theorem drawRows_eq (xv yv : Byte) (row : Nat) (bs : List Byte) (acc : Framebuffer × Bool) :
    drawRows xv yv row bs acc = drawPixels (spritePixels xv yv row bs) acc := by
  induction bs generalizing row acc with
  | nil => rfl
  | cons b bs ih =>
    simp only [drawRows, ih, drawPixels, spritePixels, List.foldl_append, rowPixels, List.foldl_map,
      drawRow]

theorem mem_spritePixels (xv yv : Byte) (row : Nat) (bs : List Byte) (q : (Fin 32 × Fin 64) × Bool) :
    q ∈ spritePixels xv yv row bs ↔ ∃ k bit b, bs[k]? = some b ∧ bit < 8 ∧
      q = ((spriteRow yv (row + k), spriteCol xv bit), spriteBit b bit) := by
  induction bs generalizing row with
  | nil => simp [spritePixels]
  | cons b bs ih =>
    simp only [spritePixels, List.mem_append, ih, rowPixels, List.mem_map, List.mem_range]
    constructor
    · rintro (⟨bit, hb, rfl⟩ | ⟨k, bit, b', hk, hb, rfl⟩)
      · exact ⟨0, bit, b, rfl, hb, rfl⟩
      · exact ⟨k + 1, bit, b', hk, hb, by rw [show row + (k + 1) = row + 1 + k by omega]⟩
    · rintro ⟨k, bit, b', hk, hb, rfl⟩
      cases k with
      | zero => exact .inl ⟨bit, hb, by simp_all⟩
      | succ k =>
        exact .inr ⟨k, bit, b', hk, hb, by rw [show row + (k + 1) = row + 1 + k by omega]⟩

theorem rowPixels_nodup (xv yv : Byte) (row : Nat) (b : Byte) :
    ((rowPixels xv yv row b).map Prod.fst).Nodup := by
  rw [rowPixels, List.map_map]
  refine List.Nodup.map_on ?_ List.nodup_range
  intro i hi j hj e
  have h := congrArg Fin.val (Prod.ext_iff.1 e).2
  simp only [Function.comp_apply, spriteCol, Fin.ofNat, List.mem_range] at h hi hj
  omega

/-- No two bits of a sprite land on one pixel. -/
theorem spritePixels_nodup (xv yv : Byte) (row : Nat) (bs : List Byte) (h : bs.length ≤ 32) :
    ((spritePixels xv yv row bs).map Prod.fst).Nodup := by
  induction bs generalizing row with
  | nil => simp [spritePixels]
  | cons b bs ih =>
    simp only [List.length_cons] at h
    rw [spritePixels, List.map_append]
    refine List.Nodup.append (rowPixels_nodup xv yv row b) (ih (row + 1) (by omega)) ?_
    intro q hq hq'
    obtain ⟨p, hp, rfl⟩ := List.mem_map.1 hq
    obtain ⟨p', hp', e⟩ := List.mem_map.1 hq'
    obtain ⟨bit, -, rfl⟩ := List.mem_map.1 hp
    obtain ⟨k, bit', b', hk, -, rfl⟩ := (mem_spritePixels ..).1 hp'
    have hl : k < bs.length := (List.getElem?_eq_some_iff.1 hk).1
    have e' := congrArg Fin.val (Prod.ext_iff.1 e).1
    simp only [spriteRow, Fin.ofNat] at e'
    omega

/-- What `LoadSprite` does with the bytes a draw reads: every pixel becomes its old value XOR the sprite's bit
there, and the collision is a set bit on a lit pixel. -/
theorem loadSprite_spec (s : State) (xv yv : Byte) (n : Nat) (hn : n ≤ 32) (d : State × Bool)
    (hd : d = s.loadSprite xv yv ((List.range n).map (fun k => s.mem.read (dataAddress s + k)))) :
    (∀ r c, d.1.fb.get r c = true ↔ ¬(s.fb.get r c = true ↔ SpriteCovers s xv yv n r c)) ∧
    (d.2 = true ↔ ∃ r c, s.fb.get r c = true ∧ SpriteCovers s xv yv n r c) ∧
    d.1 = { s with fb := d.1.fb, changes := some (.sprite xv yv (BitVec.ofNat 4 n)) } := by
  have hits : ∀ r c, Hits (spritePixels xv yv 0
      ((List.range n).map (fun k => s.mem.read (dataAddress s + k)))) r c ↔
      SpriteCovers s xv yv n r c := by
    intro r c
    simp only [Hits, mem_spritePixels, SpriteCovers, Prod.mk.injEq, List.getElem?_map, Nat.zero_add,
      Option.map_eq_some_iff, Fin.ext_iff, spriteRow, spriteCol, spriteBit, Fin.ofNat]
    constructor
    · rintro ⟨k, bit, b, ⟨j, hj, rfl⟩, hb, ⟨h1, h2⟩, h3⟩
      obtain ⟨hk, e⟩ := List.getElem?_eq_some_iff.1 hj
      rw [List.getElem_range] at e
      subst e
      exact ⟨k, bit, by simpa using hk, hb, h1, h2, h3.symm⟩
    · rintro ⟨k, bit, hk, hb, h1, h2, h3⟩
      exact ⟨k, bit, _, ⟨k, by simp [List.getElem?_range hk], rfl⟩, hb, ⟨h1, h2⟩, h3.symm⟩
  have h := drawPixels_spec (spritePixels xv yv 0
    ((List.range n).map (fun k => s.mem.read (dataAddress s + k)))) (s.fb, false)
    (spritePixels_nodup xv yv 0 _ (by simpa using hn))
  rw [← drawRows_eq] at h
  simp only [hits] at h
  subst hd
  refine ⟨h.1, ?_, ?_⟩
  · simpa [State.loadSprite] using h.2
  · simp [State.loadSprite, State.setFb, State.setChanges]

end Sys2Proof.Machine
end

