-- ==== Sys2Proof/Laws/Step.lean ====
section
/-! SUPPORT. What one step can do, by the three cases of `TICK` (spec/30_encoding.md R86), and what
`EXECUTE` can do, by the three cases of R85. -/

namespace Sys2Proof.Machine

/-- `CHANGES` does not take part in a fetch. -/
@[simp] theorem State.fetch_setChanges (s : State) (c : Option Damage) :
    (s.setChanges c).fetch = s.fetch := rfl

theorem execute_faulted {s : State} {w : Word} (h : s.fault.isSome = true) : execute w s = .next s :=
  if_pos h

theorem execute_illegal {s : State} {w : Word} (h : s.fault = none) (hd : decode w = none) :
    execute w s = .next (s.raise .illegalInstruction (some w) w.toNat) := by
  unfold execute
  rw [if_neg (by simp [h]), hd]

theorem execute_legal {s : State} {w : Word} {i : Instr} (h : s.fault = none) (hd : decode w = some i) :
    execute w s = exec i s := by
  unfold execute
  rw [if_neg (by simp [h]), hd]

theorem step_faulted {s : State} (h : s.fault.isSome = true) : step s = .next s := if_pos h

theorem step_fetched {s : State} {w : Word} (h : s.fault = none) (hw : s.fetch = .ok w) :
    step s = execute w (s.setChanges none) := by
  unfold step tick
  rw [if_neg (by simp [h]), State.fetch_setChanges, hw]

theorem step_unfetched {s : State} {a : Nat} (h : s.fault = none) (ha : s.fetch = .error a) :
    step s = .next ((s.setChanges none).raise .memOutOfBounds none a) := by
  unfold step tick
  rw [if_neg (by simp [h]), State.fetch_setChanges, ha]

/-- One step, said once: it does nothing on a faulted core, records a fetch fault, records an illegal word,
or runs one instruction. -/
theorem step_cases (s : State) :
    (s.fault.isSome = true ∧ step s = .next s) ∨
    (s.fault = none ∧ ∃ a, s.fetch = .error a ∧
      step s = .next ((s.setChanges none).raise .memOutOfBounds none a)) ∨
    (s.fault = none ∧ ∃ w, s.fetch = .ok w ∧ decode w = none ∧
      step s = .next ((s.setChanges none).raise .illegalInstruction (some w) w.toNat)) ∨
    (s.fault = none ∧ ∃ w i, s.fetch = .ok w ∧ decode w = some i ∧
      step s = exec i (s.setChanges none)) := by
  cases hf : s.fault with
  | some f => exact .inl ⟨rfl, step_faulted (by simp [hf])⟩
  | none =>
    refine .inr ?_
    cases hw : s.fetch with
    | error a => exact .inl ⟨rfl, a, rfl, step_unfetched hf hw⟩
    | ok w =>
      refine .inr ?_
      rw [step_fetched hf hw]
      cases hd : decode w with
      | none => exact .inl ⟨rfl, w, rfl, hd, execute_illegal (s := s.setChanges none) hf hd⟩
      | some i =>
        exact .inr ⟨rfl, w, i, rfl, hd, execute_legal (s := s.setChanges none) hf hd⟩

end Sys2Proof.Machine
end

