-- ==== Sys2Proof/Laws/Exec.lean ====
section
/-! SUPPORT. The next state of each meaning that has more than one path, one lemma per path, and the frame of
the shared ways to write a result. Later proofs cite these instead of unfolding a meaning. -/

namespace Sys2Proof.Machine

/-! Conversions used by every result: `pc + 2` and the two zero extensions as naturals. -/

theorem toNat_add_two (w : Word) : (w + 2).toNat = (w.toNat + 2) % 65536 := by
  simp [BitVec.toNat_add]

@[simp] theorem toNat_zextAddr (a : Addr12) : (zextAddr a).toNat = a.toNat := by
  simp only [zextAddr, BitVec.toNat_setWidth]
  omega

@[simp] theorem toNat_zextByte (b : Byte) : (zextByte b).toNat = b.toNat := by
  simp only [zextByte, BitVec.toNat_setWidth]
  omega

@[simp] theorem toNat_flagByte (c : Bool) : (flagByte c).toNat = if c = true then 1 else 0 := by
  cases c <;> rfl

theorem toNat_shiftedOutLow (b : Byte) : (shiftedOutLow b).toNat = b.toNat % 2 := by
  simp [shiftedOutLow, Nat.and_one_is_mod]

theorem toNat_shiftedOutHigh (b : Byte) : (shiftedOutHigh b).toNat = b.toNat / 128 := by
  simp only [shiftedOutHigh, BitVec.toNat_and, BitVec.toNat_ushiftRight, Nat.shiftRight_eq_div_pow]
  have h : (1 : Byte).toNat = 1 := rfl
  rw [h, Nat.and_one_is_mod]
  omega

/-- A frame is kept by listing more. -/
theorem Frame.mono {s t : State} {rs rs' : List Reg} {ps ps' : List Piece} (h : Frame s t rs ps)
    (hr : ∀ r ∈ rs, r ∈ rs') (hp : ∀ p ∈ ps, p ∈ ps') : Frame s t rs' ps' :=
  ⟨fun r hn => h.1 r fun hm => hn (hr r hm), fun p hn => h.2 p fun hm => hn (hp p hm)⟩

/-- Nothing changes from a state to itself. -/
theorem Frame.refl (s : State) (rs : List Reg) (ps : List Piece) : Frame s s rs ps :=
  ⟨fun _ _ => rfl, fun p _ => by cases p <;> simp [State.AgreesOn]⟩

/-- A recorded fault changes `FAULT` alone. -/
theorem frame_raise (s : State) (c : FaultCause) (w : Option Word) (info : Nat) :
    Frame s (s.raise c w info) [] [.fault] :=
  ⟨fun _ _ => rfl, fun p hp => by cases p <;> simp_all [State.AgreesOn]⟩

/-- A result without a flag changes its register alone. -/
theorem frame_writeResult (s : State) (x : Reg) (b : Byte) : Frame s (writeResult s x b) [x] [] := by
  refine ⟨fun r hr => ?_, fun p _ => by cases p <;> simp [State.AgreesOn, writeResult]⟩
  have h : r ≠ x := by simpa using hr
  simp [writeResult, State.getV_setV_ne _ _ h]

@[simp] theorem getV_writeResult (s : State) (x : Reg) (b : Byte) : (writeResult s x b).getV x = b := by
  simp [writeResult]

@[simp] theorem pc_writeResult (s : State) (x : Reg) (b : Byte) :
    (writeResult s x b).pc = s.pc + 2 := rfl

/-- A result with a flag changes its register and `VF` alone. -/
theorem frame_writeFlagged (s : State) (x : Reg) (b f : Byte) :
    Frame s (writeFlagged s x b f) [x, vF] [] := by
  refine ⟨fun r hr => ?_, fun p _ => by cases p <;> simp [State.AgreesOn, writeFlagged]⟩
  have h : r ≠ x ∧ r ≠ vF := by simpa using hr
  simp [writeFlagged, State.getV_setV_ne _ _ h.1, State.getV_setV_ne _ _ h.2]

@[simp] theorem getV_vF_writeFlagged (s : State) (x : Reg) (b f : Byte) :
    (writeFlagged s x b f).getV vF = f := by
  simp [writeFlagged]

theorem getV_writeFlagged (s : State) {x : Reg} (b f : Byte) (h : x ≠ vF) :
    (writeFlagged s x b f).getV x = b := by
  simp [writeFlagged, State.getV_setV_ne _ _ h]

@[simp] theorem pc_writeFlagged (s : State) (x : Reg) (b f : Byte) :
    (writeFlagged s x b f).pc = s.pc + 2 := rfl

/-! Control transfer -/

theorem exec_call_free {s : State} (nnn : Addr12) (h : s.sp.val < 16) :
    exec (.call nnn) s = .next (State.goto
      { s with stack := s.stack.set s.sp.val (s.pc + 2) h, sp := ⟨s.sp.val + 1, by omega⟩ }
      (zextAddr nnn)) := by
  simp only [exec, execCall, State.push_some h]

theorem exec_call_full {s : State} (nnn : Addr12) (h : s.sp.val = 16) :
    exec (.call nnn) s = faultIn (.call nnn) .stackOverflow (encode (.call nnn)).toNat s := by
  simp only [exec, execCall, State.push_none h]

theorem exec_ret_occupied {s : State} (h : 0 < s.sp.val) :
    exec .ret s = .next (State.goto { s with sp := ⟨s.sp.val - 1, by omega⟩ }
      (s.stack[s.sp.val - 1]'(by have := s.sp.isLt; omega))) := by
  simp only [exec, execRet, State.pop_some h]

theorem exec_ret_empty {s : State} (h : s.sp.val = 0) :
    exec .ret s = faultIn .ret .stackUnderflow (encode .ret).toNat s := by
  simp only [exec, execRet, State.pop_none h]

/-! Memory transfers -/

theorem mayWrite_iff (s : State) (a : Nat) : MayWrite s a ↔ s.writable a = true := by
  rw [State.writable_iff, MayWrite, Or.comm]

theorem storeFrom_ok {i : Instr} {bytes : List Byte} {s : State}
    (h : ∀ k, k < bytes.length → s.writable (dataAddress s + k) = true) :
    storeFrom i bytes s =
      .next ((s.setMem (s.mem.writeSlice (dataAddress s) bytes)).advance 2) := by
  simp only [storeFrom, State.memWrites_ok h]

theorem storeFrom_error {i : Instr} {bytes : List Byte} {s : State} {k : Nat} (hk : k < bytes.length)
    (hbad : s.writable (dataAddress s + k) = false)
    (hlow : ∀ j, j < k → s.writable (dataAddress s + j) = true) :
    storeFrom i bytes s = faultIn i .memOutOfBounds (dataAddress s + k) s := by
  simp only [storeFrom, State.memWrites_error hk hbad hlow]

/-- Stores from `I`, whether they land or fault, leave every byte outside their own as it was. -/
theorem read_storeFrom_outside {i : Instr} {bytes : List Byte} {s t : State} {a : Nat}
    (h : storeFrom i bytes s = .next t) (ha : a < dataAddress s ∨ dataAddress s + bytes.length ≤ a) :
    t.mem.read a = s.mem.read a := by
  rcases State.memWrites_cases s (dataAddress s) bytes with hw | ⟨k, hk, hb, hl⟩
  · rw [storeFrom_ok hw] at h
    cases h
    show (Memory.writeSlice _ _ _).read a = _
    rw [Memory.read_writeSlice]
    split
    · rw [List.getElem?_eq_none (by omega)]; rfl
    · rfl
  · rw [storeFrom_error hk hb hl] at h
    cases h
    rfl

theorem exec_ldVxMem_ok {s : State} {x : Reg} (h : dataAddress s + x.val < s.params.memSize) :
    exec (.ldVxMem x) s = .next ((s.setVs ((regsUpTo x).zip
      ((List.range (x.val + 1)).map (fun k => s.mem.read (dataAddress s + k))))).advance 2) := by
  simp only [exec, execLdVxMem, State.memReads_ok (s := s) (a := dataAddress s) (n := x.val + 1)
    (.inl (by omega))]

theorem exec_ldVxMem_error {s : State} {x : Reg} (h : s.params.memSize ≤ dataAddress s + x.val) :
    exec (.ldVxMem x) s =
      faultIn (.ldVxMem x) .memOutOfBounds (max (dataAddress s) s.params.memSize) s := by
  simp only [exec, execLdVxMem, State.memReads_error (s := s) (a := dataAddress s) (n := x.val + 1)
    (by omega) (by omega)]

/-! Display -/

theorem exec_drw_ok {s : State} {x y : Reg} {n : Nibble}
    (h : n.toNat = 0 ∨ dataAddress s + n.toNat ≤ s.params.memSize) :
    exec (.drw x y n) s =
      let d := s.loadSprite (s.getV x) (s.getV y)
        ((List.range n.toNat).map (fun k => s.mem.read (dataAddress s + k)))
      .next ((d.1.setV vF (flagByte d.2)).advance 2) := by
  simp only [exec, execDrw, State.memReads_ok (s := s) (a := dataAddress s) (n := n.toNat) h.symm]

theorem exec_drw_error {s : State} {x y : Reg} {n : Nibble} (hn : 0 < n.toNat)
    (h : s.params.memSize < dataAddress s + n.toNat) :
    exec (.drw x y n) s =
      faultIn (.drw x y n) .memOutOfBounds (max (dataAddress s) s.params.memSize) s := by
  simp only [exec, execDrw, State.memReads_error (s := s) (a := dataAddress s) (n := n.toNat) h hn]

/-- The next state of a draw that does not fault, for its framebuffer and collision. -/
theorem exec_drw_next {s : State} {x y : Reg} {n : Nibble}
    (h : n.toNat = 0 ∨ dataAddress s + n.toNat ≤ s.params.memSize) :
    ∃ (f : Framebuffer) (hit : Bool),
      exec (.drw x y n) s = .next ((State.setV
        { s with fb := f, changes := some (.sprite (s.getV x) (s.getV y) n) } vF (flagByte hit)).advance 2) ∧
      (∀ r c, f.get r c = true ↔
        ¬(s.fb.get r c = true ↔ SpriteCovers s (s.getV x) (s.getV y) n.toNat r c)) ∧
      (hit = true ↔
        ∃ r c, s.fb.get r c = true ∧ SpriteCovers s (s.getV x) (s.getV y) n.toNat r c) := by
  obtain ⟨h1, h2, h3⟩ := loadSprite_spec s (s.getV x) (s.getV y) n.toNat
    (by have := n.isLt; omega) _ rfl
  refine ⟨_, _, ?_, h1, h2⟩
  rw [exec_drw_ok h, BitVec.ofNat_toNat, BitVec.setWidth_eq] at *
  simp only [← h3]

/-! Keyboard -/

theorem exec_skp_key {s : State} {x : Reg} {k : Key} (h : (s.getV x).toNat = k.val) :
    exec (.skp x) s = .next (s.skipIf (s.keyHeld k)) := by
  have e : keyOf (s.getV x) = some k := by
    rw [keyOf_some (by omega)]
    exact congrArg some (Fin.ext h)
  simp only [exec, execSkp, e]

theorem exec_sknp_key {s : State} {x : Reg} {k : Key} (h : (s.getV x).toNat = k.val) :
    exec (.sknp x) s = .next (s.skipIf (!s.keyHeld k)) := by
  have e : keyOf (s.getV x) = some k := by
    rw [keyOf_some (by omega)]
    exact congrArg some (Fin.ext h)
  simp only [exec, execSknp, e]

theorem exec_skp_noKey {s : State} {x : Reg} (h : 15 < (s.getV x).toNat) :
    exec (.skp x) s = faultIn (.skp x) .keyOutOfRange (s.getV x).toNat s := by
  simp only [exec, execSkp, keyOf_none h]

theorem exec_sknp_noKey {s : State} {x : Reg} (h : 15 < (s.getV x).toNat) :
    exec (.sknp x) s = faultIn (.sknp x) .keyOutOfRange (s.getV x).toNat s := by
  simp only [exec, execSknp, keyOf_none h]

theorem exec_ldVxK_held {s : State} {k : Key} (x : Reg) (h : s.getPressed = some k) :
    exec (.ldVxK x) s = .next ((s.setV x (BitVec.ofNat 8 k.val)).advance 2) := by
  simp only [exec, execLdVxK, h]

theorem exec_ldVxK_waiting {s : State} (x : Reg) (h : s.getPressed = none) :
    exec (.ldVxK x) s = .next s := by
  simp only [exec, execLdVxK, h]

end Sys2Proof.Machine
end

