-- ==== Sys2Proof/Laws/PerInstr.lean ====
section
/-! SUPPORT. The per-instruction family `EncodingPattern`: the encoding of an instruction agrees with its row
of the opcode map of spec/30_encoding.md R75, `encode i AND mask = match`, whatever the operands. -/

namespace Sys2Proof.Laws.EncodingPattern

/-- The mask and match of an instruction's row (30_encoding.md R75). -/
def maskMatch : Instr → Word × Word
  | .cls => (0xFFFF, 0x00E0)
  | .ret => (0xFFFF, 0x00EE)
  | .jp _ => (0xF000, 0x1000)
  | .call _ => (0xF000, 0x2000)
  | .seByte _ _ => (0xF000, 0x3000)
  | .sneByte _ _ => (0xF000, 0x4000)
  | .seReg _ _ => (0xF00F, 0x5000)
  | .ldByte _ _ => (0xF000, 0x6000)
  | .addByte _ _ => (0xF000, 0x7000)
  | .ldReg _ _ => (0xF00F, 0x8000)
  | .orReg _ _ => (0xF00F, 0x8001)
  | .andReg _ _ => (0xF00F, 0x8002)
  | .xorReg _ _ => (0xF00F, 0x8003)
  | .addReg _ _ => (0xF00F, 0x8004)
  | .subReg _ _ => (0xF00F, 0x8005)
  | .shr _ _ => (0xF00F, 0x8006)
  | .subn _ _ => (0xF00F, 0x8007)
  | .shl _ _ => (0xF00F, 0x800E)
  | .sneReg _ _ => (0xF00F, 0x9000)
  | .ldI _ => (0xF000, 0xA000)
  | .jpV0 _ => (0xF000, 0xB000)
  | .rnd _ _ => (0xF000, 0xC000)
  | .drw _ _ _ => (0xF000, 0xD000)
  | .skp _ => (0xF0FF, 0xE09E)
  | .sknp _ => (0xF0FF, 0xE0A1)
  | .ldVxDt _ => (0xF0FF, 0xF007)
  | .ldVxK _ => (0xF0FF, 0xF00A)
  | .ldDtVx _ => (0xF0FF, 0xF015)
  | .ldStVx _ => (0xF0FF, 0xF018)
  | .addI _ => (0xF0FF, 0xF01E)
  | .ldF _ => (0xF0FF, 0xF029)
  | .ldB _ => (0xF0FF, 0xF033)
  | .ldMemVx _ => (0xF0FF, 0xF055)
  | .ldVxMem _ => (0xF0FF, 0xF065)

/-- The family: the fixed bits of the encoding are those of the instruction's row. -/
def Statement (i : Instr) : Prop := encode i &&& (maskMatch i).1 = (maskMatch i).2

/-! The four word forms under their masks. -/

theorem wordNnn_mask (a : Nibble) (nnn : Addr12) : wordNnn a nnn &&& 0xF000 = wordNnn a 0 := by
  apply BitVec.eq_of_getLsbD_eq; intro i hi
  simp only [wordNnn, BitVec.getLsbD_and, BitVec.getLsbD_append]
  interval_cases i <;> simp

theorem wordXkk_mask (a : Nibble) (x : Reg) (kk : Byte) : wordXkk a x kk &&& 0xF000 = wordXkk a 0 0 := by
  apply BitVec.eq_of_getLsbD_eq; intro i hi
  simp only [wordXkk, BitVec.getLsbD_and, BitVec.getLsbD_append]
  interval_cases i <;> simp [regBits]

theorem wordXkk_lowMask (a : Nibble) (x : Reg) (kk : Byte) :
    wordXkk a x kk &&& 0xF0FF = wordXkk a 0 kk := by
  apply BitVec.eq_of_getLsbD_eq; intro i hi
  simp only [wordXkk, BitVec.getLsbD_and, BitVec.getLsbD_append]
  interval_cases i <;> simp [regBits]

theorem wordXyn_mask (a : Nibble) (x y : Reg) (n : Nibble) :
    wordXyn a x y n &&& 0xF000 = wordXyn a 0 0 0 := by
  apply BitVec.eq_of_getLsbD_eq; intro i hi
  simp only [wordXyn, BitVec.getLsbD_and, BitVec.getLsbD_append]
  interval_cases i <;> simp [regBits]

theorem wordXyn_lowMask (a : Nibble) (x y : Reg) (n : Nibble) :
    wordXyn a x y n &&& 0xF00F = wordXyn a 0 0 n := by
  apply BitVec.eq_of_getLsbD_eq; intro i hi
  simp only [wordXyn, BitVec.getLsbD_and, BitVec.getLsbD_append]
  interval_cases i <;> simp [regBits]

/-! One lemma per constructor. -/

theorem cls : Statement .cls := rfl

theorem ret : Statement .ret := rfl

theorem jp (nnn : Addr12) : Statement (.jp nnn) := wordNnn_mask ..

theorem call (nnn : Addr12) : Statement (.call nnn) := wordNnn_mask ..

theorem seByte (x : Reg) (kk : Byte) : Statement (.seByte x kk) := wordXkk_mask ..

theorem sneByte (x : Reg) (kk : Byte) : Statement (.sneByte x kk) := wordXkk_mask ..

theorem seReg (x : Reg) (y : Reg) : Statement (.seReg x y) := wordXyn_lowMask ..

theorem ldByte (x : Reg) (kk : Byte) : Statement (.ldByte x kk) := wordXkk_mask ..

theorem addByte (x : Reg) (kk : Byte) : Statement (.addByte x kk) := wordXkk_mask ..

theorem ldReg (x : Reg) (y : Reg) : Statement (.ldReg x y) := wordXyn_lowMask ..

theorem orReg (x : Reg) (y : Reg) : Statement (.orReg x y) := wordXyn_lowMask ..

theorem andReg (x : Reg) (y : Reg) : Statement (.andReg x y) := wordXyn_lowMask ..

theorem xorReg (x : Reg) (y : Reg) : Statement (.xorReg x y) := wordXyn_lowMask ..

theorem addReg (x : Reg) (y : Reg) : Statement (.addReg x y) := wordXyn_lowMask ..

theorem subReg (x : Reg) (y : Reg) : Statement (.subReg x y) := wordXyn_lowMask ..

theorem shr (x : Reg) (y : Reg) : Statement (.shr x y) := wordXyn_lowMask ..

theorem subn (x : Reg) (y : Reg) : Statement (.subn x y) := wordXyn_lowMask ..

theorem shl (x : Reg) (y : Reg) : Statement (.shl x y) := wordXyn_lowMask ..

theorem sneReg (x : Reg) (y : Reg) : Statement (.sneReg x y) := wordXyn_lowMask ..

theorem ldI (nnn : Addr12) : Statement (.ldI nnn) := wordNnn_mask ..

theorem jpV0 (nnn : Addr12) : Statement (.jpV0 nnn) := wordNnn_mask ..

theorem rnd (x : Reg) (kk : Byte) : Statement (.rnd x kk) := wordXkk_mask ..

theorem drw (x : Reg) (y : Reg) (n : Nibble) : Statement (.drw x y n) := wordXyn_mask ..

theorem skp (x : Reg) : Statement (.skp x) := wordXkk_lowMask ..

theorem sknp (x : Reg) : Statement (.sknp x) := wordXkk_lowMask ..

theorem ldVxDt (x : Reg) : Statement (.ldVxDt x) := wordXkk_lowMask ..

theorem ldVxK (x : Reg) : Statement (.ldVxK x) := wordXkk_lowMask ..

theorem ldDtVx (x : Reg) : Statement (.ldDtVx x) := wordXkk_lowMask ..

theorem ldStVx (x : Reg) : Statement (.ldStVx x) := wordXkk_lowMask ..

theorem addI (x : Reg) : Statement (.addI x) := wordXkk_lowMask ..

theorem ldF (x : Reg) : Statement (.ldF x) := wordXkk_lowMask ..

theorem ldB (x : Reg) : Statement (.ldB x) := wordXkk_lowMask ..

theorem ldMemVx (x : Reg) : Statement (.ldMemVx x) := wordXkk_lowMask ..

theorem ldVxMem (x : Reg) : Statement (.ldVxMem x) := wordXkk_lowMask ..

end Sys2Proof.Laws.EncodingPattern
end

