-- ==== Sys2Proof/Tests/Slice0.lean ====
section
/-! SUPPORT. The model's own tests. The words are written out from the encodings of spec/30_encoding.md R75;
the expected results are those of the vectors of spec/95_test_vectors.md named in each comment (V-...), or are
computed by hand from the rule named. The last section shows, for each statement with hypotheses, a concrete
state and operands that meet them. -/

namespace Sys2Proof.Tests

open Sys2Proof Sys2Proof.Machine

/-! Helpers -/

/-- What is observed of the next state; `none` when there is none. -/
def after {α : Type} (o : StepOutcome) (f : State → α) : Option α :=
  match o with
  | .next t => some (f t)
  | .refused _ => none

/-- The reset state with some registers set. -/
def regs (l : List (Reg × Byte)) : State := State.reset.setVs l

/-- A state with bytes placed at an address. -/
def placed (a : Nat) (bytes : List Byte) (s : State) : State := s.setMem (s.mem.writeSlice a bytes)

/-- A state with some keys held. -/
def holding : List Key → State → State
  | [], s => s
  | k :: ks, s => holding ks (s.setKeyState k true)

/-- A state with a lit pixel. -/
def lit (r : Fin 32) (c : Fin 64) (s : State) : State := s.setFb (s.fb.put r c true)

/-- The reset state for other parameters. -/
def powered (p : Params) : State := State.powerOn p 0

/-- `SHIFT_SOURCE = VY`, the rest as the reference. -/
def shiftVy : Params := { Params.reference with shiftSource := .vy }

/-- `RESERVED_WRITE = FAULT`, the rest as the reference. -/
def reservedFault : Params := { Params.reference with reservedWrite := .fault }

/-- The state after some operations from a state. -/
def runs (ops : List Operation) (s : State) : State := runOperations s ops

/-! Decoding: one word of each row of 30_encoding.md R75, its nibbles written out from the row's pattern. -/

/-- `00E0` -/
theorem test_decode_cls : decode 0x00E0 = some .cls := by decide
/-- `00EE` -/
theorem test_decode_ret : decode 0x00EE = some .ret := by decide
/-- `1nnn` with `nnn = ABC` -/
theorem test_decode_jp : decode 0x1ABC = some (.jp 0xABC) := by decide
/-- `2nnn` with `nnn = ABC` -/
theorem test_decode_call : decode 0x2ABC = some (.call 0xABC) := by decide
/-- `3xkk` with `x = A`, `kk = 12` -/
theorem test_decode_seByte : decode 0x3A12 = some (.seByte 0xA 0x12) := by decide
/-- `4xkk` -/
theorem test_decode_sneByte : decode 0x4A12 = some (.sneByte 0xA 0x12) := by decide
/-- `5xy0` with `x = A`, `y = B` -/
theorem test_decode_seReg : decode 0x5AB0 = some (.seReg 0xA 0xB) := by decide
/-- `6xkk` -/
theorem test_decode_ldByte : decode 0x6A12 = some (.ldByte 0xA 0x12) := by decide
/-- `7xkk` -/
theorem test_decode_addByte : decode 0x7A12 = some (.addByte 0xA 0x12) := by decide
/-- `8xy0` -/
theorem test_decode_ldReg : decode 0x8AB0 = some (.ldReg 0xA 0xB) := by decide
/-- `8xy1` -/
theorem test_decode_orReg : decode 0x8AB1 = some (.orReg 0xA 0xB) := by decide
/-- `8xy2` -/
theorem test_decode_andReg : decode 0x8AB2 = some (.andReg 0xA 0xB) := by decide
/-- `8xy3` -/
theorem test_decode_xorReg : decode 0x8AB3 = some (.xorReg 0xA 0xB) := by decide
/-- `8xy4` -/
theorem test_decode_addReg : decode 0x8AB4 = some (.addReg 0xA 0xB) := by decide
/-- `8xy5` -/
theorem test_decode_subReg : decode 0x8AB5 = some (.subReg 0xA 0xB) := by decide
/-- `8xy6` -/
theorem test_decode_shr : decode 0x8AB6 = some (.shr 0xA 0xB) := by decide
/-- `8xy7` -/
theorem test_decode_subn : decode 0x8AB7 = some (.subn 0xA 0xB) := by decide
/-- `8xyE` -/
theorem test_decode_shl : decode 0x8ABE = some (.shl 0xA 0xB) := by decide
/-- `9xy0` -/
theorem test_decode_sneReg : decode 0x9AB0 = some (.sneReg 0xA 0xB) := by decide
/-- `Annn` -/
theorem test_decode_ldI : decode 0xA2F0 = some (.ldI 0x2F0) := by decide
/-- `Bnnn` -/
theorem test_decode_jpV0 : decode 0xB2F0 = some (.jpV0 0x2F0) := by decide
/-- `Cxkk` -/
theorem test_decode_rnd : decode 0xCA12 = some (.rnd 0xA 0x12) := by decide
/-- `Dxyn` with `n = C` -/
theorem test_decode_drw : decode 0xDABC = some (.drw 0xA 0xB 0xC) := by decide
/-- `Ex9E` -/
theorem test_decode_skp : decode 0xEA9E = some (.skp 0xA) := by decide
/-- `ExA1` -/
theorem test_decode_sknp : decode 0xEBA1 = some (.sknp 0xB) := by decide
/-- `Fx07` -/
theorem test_decode_ldVxDt : decode 0xFA07 = some (.ldVxDt 0xA) := by decide
/-- `Fx0A` -/
theorem test_decode_ldVxK : decode 0xFB0A = some (.ldVxK 0xB) := by decide
/-- `Fx15` -/
theorem test_decode_ldDtVx : decode 0xFA15 = some (.ldDtVx 0xA) := by decide
/-- `Fx18` -/
theorem test_decode_ldStVx : decode 0xFA18 = some (.ldStVx 0xA) := by decide
/-- `Fx1E` -/
theorem test_decode_addI : decode 0xFA1E = some (.addI 0xA) := by decide
/-- `Fx29` -/
theorem test_decode_ldF : decode 0xFA29 = some (.ldF 0xA) := by decide
/-- `Fx33` -/
theorem test_decode_ldB : decode 0xFA33 = some (.ldB 0xA) := by decide
/-- `Fx55` -/
theorem test_decode_ldMemVx : decode 0xFA55 = some (.ldMemVx 0xA) := by decide
/-- `Fx65` -/
theorem test_decode_ldVxMem : decode 0xFA65 = some (.ldVxMem 0xA) := by decide

/-- The illegal words of V-FLT-1 to V-FLT-10, V-FLT-17 and V-ALU-28. -/
theorem test_decode_illegal :
    ([0x0123, 0x0000, 0x00E1, 0x5121, 0x800F, 0x9121, 0xE19F, 0xF000, 0xF156, 0xFFFF, 0xE09F, 0x8128] :
      List Word).all (fun w => (decode w).isNone) = true := by decide

/-- Bytes are read high byte first (V-FLT-14), and one byte is no instruction. -/
theorem test_decode_bytes :
    decodeBytes [0xA2, 0x34, 0x77] = .ok (.ldI 0x234, [0x77]) ∧ decodeBytes [0xA2] = .error .truncated ∧
      decodeTableWord 16 0xA234 = some (.ldI 0x234) ∧ decodeTableWord 16 0x5121 = none :=
  ⟨rfl, rfl, by decide, by decide⟩

/-! Well-formedness: an ill-formed term for each check (00_scope.md R6), and the two parameter sets used here. -/

/-- `LOAD_ADDR < MEM_SIZE` -/
theorem test_illFormed_loadAddr :
    ¬Params.WellFormed { Params.reference with loadAddr := 4096 } := by decide
/-- `MEM_SIZE <= 65536` -/
theorem test_illFormed_memSize :
    ¬Params.WellFormed { Params.reference with memSize := 65537 } := by decide
/-- `len(FONT_IMAGE) <= LOAD_ADDR` -/
theorem test_illFormed_fontImage :
    ¬Params.WellFormed { Params.reference with fontImage := [1, 2], loadAddr := 1 } := by decide
/-- The reference values and the font candidate are well formed. -/
theorem test_wellFormed_parameters :
    Params.reference.WellFormed ∧
      Params.WellFormed { Params.reference with fontImage := Config.conventionalFont } := by decide

/-! Control transfer -/

/-- V-CTL-1 -/
theorem test_ret_pops :
    after (execute 0x00EE
      { State.reset with pc := 0x300, sp := 1, stack := State.reset.stack.set 0 0x204 })
      (fun t => (t.pc, t.sp, t.stack[0])) = some (0x204, 0, 0x204) := by decide
/-- V-CTL-2 -/
theorem test_ret_underflow :
    after (execute 0x00EE { State.reset with pc := 0x300 }) (fun t => (t.pc, t.fault)) =
      some (0x300, some ⟨.stackUnderflow, 0x300, some 0x00EE, 0x00EE⟩) := by decide
/-- V-CTL-4 -/
theorem test_jp_odd : after (execute 0x1203 State.reset) (fun t => (t.pc, t.fault)) =
    some (0x203, none) := by decide
/-- V-CTL-9 -/
theorem test_call_pushWraps :
    after (execute 0x2300
      { State.reset with pc := 0xFFFE, stack := State.reset.stack.set 0 0x1111 })
      (fun t => (t.pc, t.sp, t.stack[0])) = some (0x300, 1, 0) := by decide
/-- V-CTL-8 -/
theorem test_call_overflow :
    after (execute 0x2300 { State.reset with sp := 16, pc := 0x400 }) (fun t => (t.pc, t.sp, t.fault)) =
      some (0x400, 16, some ⟨.stackOverflow, 0x400, some 0x2300, 0x2300⟩) := by decide
/-- V-CTL-11 and V-CTL-12 -/
theorem test_seByte :
    after (execute 0x3312 (regs [(3, 0x12)])) State.pc = some 0x204 ∧
      after (execute 0x3312 (regs [(3, 0x13)])) State.pc = some 0x202 := by decide
/-- V-CTL-16 and V-CTL-17 -/
theorem test_sneByte :
    after (execute 0x4312 (regs [(3, 0x12)])) State.pc = some 0x202 ∧
      after (execute 0x4312 (regs [])) State.pc = some 0x204 := by decide
/-- V-CTL-18 and V-CTL-19 -/
theorem test_seReg :
    after (execute 0x5120 (regs [(1, 7), (2, 7)])) State.pc = some 0x204 ∧
      after (execute 0x5120 (regs [(1, 7), (2, 8)])) State.pc = some 0x202 := by decide
/-- V-CTL-21 and V-CTL-22 -/
theorem test_sneReg :
    after (execute 0x9120 (regs [(1, 7), (2, 8)])) State.pc = some 0x204 ∧
      after (execute 0x9120 (regs [(1, 7), (2, 7)])) State.pc = some 0x202 := by decide
/-- V-CTL-25 -/
theorem test_jpV0_sixteenBits : after (execute 0xBFFF (regs [(0, 0xFF)])) State.pc = some 0x10FE := by
  decide
/-- V-CTL-27 -/
theorem test_jpV0_usesV0 : after (execute 0xB200 (regs [(0, 3), (1, 0x77)])) State.pc = some 0x203 := by
  decide

/-! Register loads and the ALU -/

/-- V-ALU-2 -/
theorem test_ldByte_vF : after (execute 0x6F99 (regs [(15, 1)])) (fun t => (t.getV 15, t.pc)) =
    some (0x99, 0x202) := by decide
/-- V-ALU-3 -/
theorem test_addByte_wraps : after (execute 0x7003 (regs [(0, 0xFE), (15, 0x55)]))
    (fun t => (t.getV 0, t.getV 15)) = some (1, 0x55) := by decide
/-- V-SRC-1d -/
theorem test_addByte_vF : after (execute 0x7F03 (regs [(15, 0xFE)])) (fun t => t.getV 15) = some 1 := by
  decide
/-- V-ALU-5 -/
theorem test_ldReg : after (execute 0x8120 (regs [(2, 0x99)])) (fun t => (t.getV 1, t.getV 2)) =
    some (0x99, 0x99) := by decide
/-- V-ALU-7 -/
theorem test_orReg : after (execute 0x8121 (regs [(1, 0xF0), (2, 0x0F), (15, 0x77)]))
    (fun t => (t.getV 1, t.getV 15)) = some (0xFF, 0x77) := by decide
/-- V-ALU-8 -/
theorem test_andReg : after (execute 0x8122 (regs [(1, 0xF0), (2, 0x3C), (15, 0x77)]))
    (fun t => (t.getV 1, t.getV 15)) = some (0x30, 0x77) := by decide
/-- V-ALU-9 -/
theorem test_xorReg : after (execute 0x8123 (regs [(1, 0xF0), (2, 0x3C), (15, 0x77)]))
    (fun t => (t.getV 1, t.getV 15)) = some (0xCC, 0x77) := by decide
/-- V-SRC-2b and V-SRC-2c: the sums 255 and 256 -/
theorem test_addReg_carry :
    after (execute 0x8124 (regs [(1, 0x9B), (2, 0x64), (15, 1)])) (fun t => (t.getV 1, t.getV 15)) =
      some (0xFF, 0) ∧
    after (execute 0x8124 (regs [(1, 0x9C), (2, 0x64)])) (fun t => (t.getV 1, t.getV 15)) =
      some (0, 1) := by decide
/-- V-ALU-12 and V-ALU-13: `VF` as destination and as operand -/
theorem test_addReg_vF :
    after (execute 0x8F14 (regs [(1, 1), (15, 0xFF)])) (fun t => t.getV 15) = some 1 ∧
      after (execute 0x81F4 (regs [(1, 5), (15, 3)])) (fun t => (t.getV 1, t.getV 15)) =
        some (8, 0) := by decide
/-- V-SRC-3b and V-SRC-3c -/
theorem test_subReg_borrow :
    after (execute 0x8125 (regs [(1, 5), (2, 7), (15, 1)])) (fun t => (t.getV 1, t.getV 15)) =
      some (0xFE, 0) ∧
    after (execute 0x8125 (regs [(1, 0x42), (2, 0x42)])) (fun t => (t.getV 1, t.getV 15)) =
      some (0, 1) := by decide
/-- V-ALU-14 -/
theorem test_subReg_vF : after (execute 0x8F15 (regs [(1, 0x20), (15, 0x10)])) (fun t => t.getV 15) =
    some 0 := by decide
/-- V-ALU-16 -/
theorem test_shr_vx : after (execute 0x8126 (regs [(1, 5), (2, 0x80)]))
    (fun t => (t.getV 1, t.getV 15)) = some (2, 1) := by decide
/-- V-ALU-17 -/
theorem test_shr_vy : after (execute 0x8126 ((powered shiftVy).setVs [(1, 5), (2, 0x80), (15, 1)]))
    (fun t => (t.getV 1, t.getV 2, t.getV 15)) = some (0x40, 0x80, 0) := by decide
/-- V-ALU-21 and V-ALU-22 -/
theorem test_subn_borrow :
    after (execute 0x8127 (regs [(1, 5), (2, 7)])) (fun t => (t.getV 1, t.getV 15)) = some (2, 1) ∧
      after (execute 0x8127 (regs [(1, 7), (2, 5), (15, 1)])) (fun t => (t.getV 1, t.getV 15)) =
        some (0xFE, 0) := by decide
/-- V-ALU-24 -/
theorem test_shl_vx : after (execute 0x812E (regs [(1, 0x81), (2, 1)]))
    (fun t => (t.getV 1, t.getV 15)) = some (2, 1) := by decide
/-- V-ALU-25 -/
theorem test_shl_vy : after (execute 0x812E ((powered shiftVy).setVs [(1, 0x81), (2, 1), (15, 1)]))
    (fun t => (t.getV 1, t.getV 15)) = some (2, 0) := by decide
/-- V-ALU-29, with the random byte 0xAB given -/
theorem test_rnd_masks :
    (rndWith 0xAB 3 0x0F State.reset).getV 3 = 0x0B ∧ (rndWith 0xAB 3 0x0F State.reset).pc = 0x202 := by
  decide
/-- V-ALU-30: `kk = 0` still takes a byte; whatever it is, the register becomes 0 (here by the law of AND, since
the byte is free) -/
theorem test_rnd_takesByte : exec (.rnd 3 0) (regs [(3, 0x77)]) =
    .next (rndWith (Config.randomByte 0) 3 0 (regs [(3, 0x77)])) ∧
    (rndWith (Config.randomByte 0) 3 0 (regs [(3, 0x77)])).draws = 1 ∧
    (rndWith (Config.randomByte 0) 3 0 (regs [(3, 0x77)])).getV 3 = 0 :=
  ⟨rfl, rfl, by simp [rndWith]⟩

/-! The index register and memory transfers -/

/-- V-MEM-1 -/
theorem test_ldI : after (execute 0xA2F0 { State.reset with i := 0xFFFF }) (fun t => (t.i, t.pc)) =
    some (0x2F0, 0x202) := by decide
/-- V-MEM-3 and V-MEM-4 -/
theorem test_addI_wraps :
    after (execute 0xF11E { regs [(1, 1), (15, 9)] with i := 0x0FFF }) (fun t => (t.i, t.getV 15)) =
      some (0x1000, 9) ∧
    after (execute 0xF11E { regs [(1, 2)] with i := 0xFFFF }) State.i = some 1 := by decide
/-- V-MEM-5 and V-MEM-7 -/
theorem test_ldF :
    after (execute 0xF229 (regs [(2, 0x0A)])) State.i = some 0x32 ∧
      after (execute 0xF229 (regs [(2, 0xFF)])) State.i = some 0x04FB := by decide
/-- V-SRC-5a and V-SRC-5b: a written 0 is no longer listed -/
theorem test_ldB_digits :
    after (execute 0xF333 { regs [(3, 0xEA)] with i := 0x300 }) State.mem =
      some [(0x300, 2), (0x301, 3), (0x302, 4)] ∧
    after (execute 0xF333 (placed 0x300 [9, 9, 9] { regs [(3, 0)] with i := 0x300 })) State.mem =
      some [] := by decide
/-- V-MEM-10 and V-MEM-12 -/
theorem test_ldB_faults :
    after (execute 0xF033 { regs [(0, 0x7B)] with i := 0xFFE }) (fun t => (t.fault, t.mem)) =
      some (some ⟨.memOutOfBounds, 0x200, some 0xF033, 0x1000⟩, []) ∧
    after (execute 0xF033 { (powered reservedFault).setV 0 0x8E with i := 0x100 })
      (fun t => (t.fault, t.mem)) =
      some (some ⟨.memOutOfBounds, 0x200, some 0xF033, 0x100⟩, []) := by decide
/-- V-MEM-13 -/
theorem test_ldMemVx_range :
    after (execute 0xF255 { regs [(0, 1), (1, 2), (2, 3), (3, 4)] with i := 0x300 })
      (fun t => (t.mem, t.i, t.pc)) =
      some ([(0x300, 1), (0x301, 2), (0x302, 3)], 0x300, 0x202) := by decide
/-- V-MEM-15 and V-MEM-16: the last byte of memory and one beyond -/
theorem test_ldMemVx_bounds :
    after (execute 0xFF55 { regs [(15, 0xEE)] with i := 0xFF0 }) (fun t => (t.mem, t.fault)) =
      some ([(0xFFF, 0xEE)], none) ∧
    after (execute 0xFF55 { regs [(0, 0x11)] with i := 0xFF1 }) (fun t => (t.mem, t.fault)) =
      some ([], some ⟨.memOutOfBounds, 0x200, some 0xFF55, 0x1000⟩) := by decide
/-- V-MEM-17 -/
theorem test_ldVxMem_range :
    after (execute 0xF165 (placed 0x300 [0xAA, 0xBB, 0xCC] { regs [(2, 1)] with i := 0x300 }))
      (fun t => (t.getV 0, t.getV 1, t.getV 2, t.i)) = some (0xAA, 0xBB, 1, 0x300) := by decide
/-- V-MEM-19 -/
theorem test_ldVxMem_fault :
    after (execute 0xF265 (placed 0xFFE [1, 2] { regs [(0, 0x99)] with i := 0xFFE }))
      (fun t => (t.getV 0, t.pc, t.fault)) =
      some (0x99, 0x200, some ⟨.memOutOfBounds, 0x200, some 0xF265, 0x1000⟩) := by decide

/-! Display -/

/-- V-DSP-11 -/
theorem test_cls :
    after (execute 0x00E0 (lit 3 3 (State.reset.setChanges (some (.sprite 1 2 3)))))
      (fun t => (t.fb.get 3 3, t.changes, t.pc)) = some (false, some .cleared, 0x202) := by decide
/-- V-DSP-2: wraps on both axes -/
theorem test_drw_wraps :
    after (execute 0xD012 (placed 0x300 [0xF0, 0xF0] { regs [(0, 0x3E), (1, 0x1F)] with i := 0x300 }))
      (fun t => ([t.fb.get 0 0, t.fb.get 0 62, t.fb.get 31 1, t.fb.get 31 63, t.fb.get 31 2], t.getV 15,
        t.changes)) =
      some ([true, true, true, true, false], 0, some (.sprite 62 31 2)) := by decide
/-- V-DSP-6 and V-DSP-9: a collision does not stop the draw; a fault draws nothing -/
theorem test_drw_collides :
    after (execute 0xD012 (placed 0x300 [0x80, 0x80] (lit 0 0 { regs [(15, 7)] with i := 0x300 })))
      (fun t => (t.fb.get 0 0, t.fb.get 1 0, t.getV 15)) = some (false, true, 1) ∧
    after (execute 0xD002 (placed 0xFFF [0xFF] { State.reset with i := 0xFFF }))
      (fun t => (t.fb.get 0 0, t.changes, t.fault)) =
      some (false, none, some ⟨.memOutOfBounds, 0x200, some 0xD002, 0x1000⟩) := by decide

/-! Keyboard -/

/-- V-KEY-8 and V-KEY-10 -/
theorem test_skp :
    after (execute 0xE29E (holding [5] (regs [(2, 5)]))) State.pc = some 0x204 ∧
      after (execute 0xE29E (regs [(2, 0x10)])) (fun t => (t.pc, t.fault)) =
        some (0x200, some ⟨.keyOutOfRange, 0x200, some 0xE29E, 0x10⟩) := by decide
/-- V-KEY-11 to V-KEY-13 -/
theorem test_sknp :
    after (execute 0xE2A1 (regs [(2, 5)])) State.pc = some 0x204 ∧
      after (execute 0xE2A1 (holding [5] (regs [(2, 5)]))) State.pc = some 0x202 ∧
      after (execute 0xE2A1 (regs [(2, 0xFF)])) State.fault =
        some (some ⟨.keyOutOfRange, 0x200, some 0xE2A1, 0xFF⟩) := by decide
/-- V-KEY-15 -/
theorem test_ldVxK_lowest :
    after (execute 0xF30A (holding [7, 3] State.reset)) (fun t => (t.getV 3, t.pc)) =
      some (3, 0x202) := by decide
/-- V-KEY-14: nothing changes at all -/
theorem test_ldVxK_waits : execute 0xF30A (regs [(3, 0x55)]) = .next (regs [(3, 0x55)]) := rfl

/-! Timers -/

/-- V-TMR-1 -/
theorem test_ldVxDt : after (execute 0xF307 { State.reset with dt := 60 }) (fun t => t.getV 3) =
    some 0x3C := by decide
/-- V-TMR-2 -/
theorem test_ldDtVx : after (execute 0xF315 (regs [(3, 0x3C)])) (fun t => (t.dt, t.st)) =
    some (60, 0) := by decide
/-- V-TMR-9 -/
theorem test_ldStVx : after (execute 0xFF18 (regs [(15, 0xFF)])) (fun t => (t.dt, t.st)) =
    some (0, 255) := by decide

/-! The instruction cycle, the host's operations and reset -/

/-- V-FLT-12 -/
theorem test_step_fetchFault :
    after (step (placed 0xFFF [0x60] { State.reset with pc := 0xFFF })) State.fault =
      some (some ⟨.memOutOfBounds, 0xFFF, none, 0x1000⟩) := by decide
/-- V-FLT-16 -/
theorem test_step_illegal :
    after (step (placed 0x200 [0xFF, 0xFF] (State.reset.setChanges (some .cleared))))
      (fun t => (t.changes, t.fault)) =
      some (none, some ⟨.illegalInstruction, 0x200, some 0xFFFF, 0xFFFF⟩) := by decide
/-- V-FLT-15 -/
theorem test_step_faulted :
    step { placed 0x200 [0x71, 1] (regs [(1, 1)]) with
      fault := some ⟨.stackUnderflow, 0x200, some 0x00EE, 0x00EE⟩, changes := some .cleared } =
      .next { placed 0x200 [0x71, 1] (regs [(1, 1)]) with
        fault := some ⟨.stackUnderflow, 0x200, some 0x00EE, 0x00EE⟩, changes := some .cleared } := rfl
/-- V-DSP-13 and V-DSP-14: a tick clears `CHANGES`, `EXECUTE` does not -/
theorem test_step_clearsChanges :
    after (step (placed 0x200 [0x60, 0] (State.reset.setChanges (some (.sprite 1 2 3))))) State.changes =
      some none ∧
    after (execute 0x6000 (State.reset.setChanges (some (.sprite 1 2 3)))) State.changes =
      some (some (.sprite 1 2 3)) := by decide
/-- `withFetchWord` (log 8): from reset, and from a state whose `pc` cannot be fetched from. -/
theorem test_withFetchWord :
    after (step (State.reset.withFetchWord 16 0x6A42)) (fun t => (t.getV 0xA, t.pc)) =
      some (0x42, 0x202) ∧
    after (step (State.withFetchWord { State.reset with pc := 0xFFF } 16 0x6A42))
      (fun t => t.getV 0xA) = some 0x42 := by decide
/-- V-FLT-13 and V-FLT-14 -/
theorem test_fetch :
    operate .fetch { State.reset with pc := 0xFFF } = ({ State.reset with pc := 0xFFF }, .word none) ∧
      operate .fetch (placed 0x200 [0xA2, 0x34] State.reset) =
        (placed 0x200 [0xA2, 0x34] State.reset, .word (some 0xA234)) := ⟨rfl, rfl⟩
/-- V-KEY-2, V-KEY-3 and V-KEY-5 -/
theorem test_keys :
    operate (.setKey 16) State.reset = (State.reset, .refused (.keyCodeOutOfRange 16)) ∧
      (runs [.unsetKey 5, .unsetKey 5, .unsetKey 7] (holding [5, 6] State.reset)).keys =
        (holding [6] State.reset).keys ∧
      (operate (.isPressed 5) (holding [5] State.reset)).2 = .pressed true := by decide
/-- V-KEY-6 and V-KEY-7 -/
theorem test_getPressed :
    (operate .getPressed (holding [3, 7, 15] State.reset)).2 = .key (some 3) ∧
      (operate .getPressed State.reset).2 = .key none := by decide
/-- V-TMR-5 -/
theorem test_updateTimers :
    (runs [.updateTimers, .updateTimers] { State.reset with dt := 2, st := 1 }).dt = 0 ∧
      (runs [.updateTimers, .updateTimers] { State.reset with dt := 2, st := 1 }).st = 0 := by decide
/-- V-DSP-15 -/
theorem test_clearChanges :
    (operate .clearChanges (State.reset.setChanges (some .cleared))).1.changes = none := by decide
/-- V-RST-2, and V-RST-3 for the font -/
theorem test_reset :
    (operate .reset (placed 0x200 [0xAB] (lit 2 2 (holding [1]
      { regs [(3, 9)] with pc := 0x456, sp := 2, dt := 4, i := 0x123 })))).1 = State.reset ∧
    (operate .reset (State.setMem
      (powered { Params.reference with fontImage := [0xF0, 0x90] }) [(0x200, 0xAB)])).1.mem =
      [(0, 0xF0), (1, 0x90)] := by decide
/-- V-RST-4 and V-RST-8 -/
theorem test_load :
    (operate (.load [0x12, 0x34, 0x56]) (placed 0x204 [0x77] { State.reset with pc := 0x300 })).1.mem =
      [(0x200, 0x12), (0x201, 0x34), (0x202, 0x56), (0x204, 0x77)] ∧
    (operate (.load [0xAA, 0xBB]) (placed 0x200 [0x11, 0x22, 0x33] State.reset)).1.mem =
      [(0x200, 0xAA), (0x201, 0xBB), (0x202, 0x33)] := by decide
/-- V-RST-5 and V-RST-6, by the lengths of the images -/
theorem test_load_bounds (image : List Byte) :
    (image.length = 3585 →
      operate (.load image) State.reset = (State.reset, .refused (.imageDoesNotFit 3585))) ∧
    (image.length = 3584 → (operate (.load image) State.reset).2 = .done) := by
  constructor
  · intro h
    simp only [operate, State.load, h]
    exact if_pos (by decide)
  · intro h
    simp only [operate, State.load, h]
    rw [if_neg (by decide)]
/-- The numeric codes of 60_exceptions.md R240. -/
theorem test_faultCodes : ([.illegalInstruction, .stackOverflow, .stackUnderflow, .memOutOfBounds,
    .keyOutOfRange] : List FaultCause).map FaultCause.code = [1, 2, 3, 4, 5] := by decide

/-! Witnesses. One theorem for each statement with hypotheses: a state and operands that meet all of them,
each clause at a boundary of its range. -/

/-- A state with a fault recorded. -/
def faulted : State := State.reset.raise .stackUnderflow (some 0x00EE) 0x00EE

/-- The reset state meets the invariant (RestartMeetsInvariant, StepKeepsInvariant, EveryRunKeepsInvariant). -/
theorem witness_inv : State.reset.Inv ∧ Params.reference.WellFormed :=
  ⟨⟨by decide, by decide, by decide⟩, by decide⟩

/-- DecodeOfEncodeIsIdentity and EncodeOfDecodeIsIdentity. -/
theorem witness_decode : Instr.WellFormed (.drw 0xF 0xF 0xF) = true ∧ decode 0xDFFF = some (.drw 0xF 0xF 0xF) := by
  decide

/-- StepRunsDecodedInstruction: the last word of memory. -/
theorem witness_step :
    let s := placed 0xFFE [0x6A, 0x42] { State.reset with pc := 0xFFE }
    Instr.WellFormed (.ldByte 0xA 0x42) = true ∧ s.fault = none ∧ s.pc.toNat + 1 < s.params.memSize ∧
      decode (wordOfBytes (s.mem.read s.pc.toNat) (s.mem.read (s.pc.toNat + 1))) =
        some (.ldByte 0xA 0x42) := by decide

/-- FetchOutOfBoundsIsRecorded, both failing addresses, and InspectionFetchIsBigEndian. -/
theorem witness_fetch :
    let s := fun (p : Word) => { State.reset with pc := p }
    ((s 0xFFF).fault = none ∧ (s 0xFFF).params.memSize ≤ (s 0xFFF).pc.toNat + 1) ∧
      ((s 0x1000).fault = none ∧ (s 0x1000).params.memSize ≤ (s 0x1000).pc.toNat) ∧
      (s 0xFFE).pc.toNat + 1 < (s 0xFFE).params.memSize := by decide

/-- IllegalWordIsRecorded: the reset memory's own word. -/
theorem witness_illegal :
    State.reset.fault = none ∧ decode 0x0000 = none ∧ State.reset.fetch = .ok 0x0000 :=
  ⟨rfl, by decide, rfl⟩

/-- FaultedCoreObeysHostOnly and EveryStepAnswersNext. -/
theorem witness_faulted :
    faulted.fault = some ⟨.stackUnderflow, 0x200, some 0x00EE, 0x00EE⟩ ∧ faulted.fault ≠ none ∧
      Operation.updateTimers ≠ .new ∧ Operation.updateTimers ≠ .reset ∧ Operation.updateTimers ≠ .tick ∧
      Operation.updateTimers ≠ .readFault ∧ ∀ w, Operation.updateTimers ≠ .execute w :=
  ⟨rfl, by decide, by decide, by decide, by decide, by decide, fun _ h => by cases h⟩

/-- FaultsArePrecise. -/
theorem witness_precise :
    State.reset.fault = none ∧ exec .ret State.reset = .next faulted ∧ faulted.fault ≠ none :=
  ⟨rfl, rfl, by decide⟩

/-- InstructionsFaultExactlyWhen: both sides occur. -/
theorem witness_faultCondition :
    State.reset.fault = none ∧ FaultCondition State.reset .ret ∧ ¬FaultCondition State.reset .cls := by
  simp [FaultCondition, State.reset, State.powerOn]

/-- CallPushesReturnAddress, ReturnPopsPc and CallThenReturnResumes, each side of each bound. -/
theorem witness_stack :
    (let s := { State.reset with sp := 15 }; s.sp.val < 16) ∧
      (let s := { State.reset with sp := 16 }; s.sp.val = 16) ∧
      (let s := { State.reset with sp := 1 }; 0 < s.sp.val ∧ (0 : Fin 16).val + 1 = s.sp.val) ∧
      State.reset.sp.val = 0 := by decide

/-- ShiftsMoveOneBit, for both values of `SHIFT_SOURCE`. -/
theorem witness_shift :
    (let s := regs [(1, 5), (2, 0x80)]
     (s.params.shiftSource = .vx → 5 = (s.getV 1).toNat) ∧
       (s.params.shiftSource = .vy → 5 = (s.getV 2).toNat)) ∧
    (let s := (powered shiftVy).setVs [(1, 5), (2, 0x80)]
     (s.params.shiftSource = .vx → 0x80 = (s.getV 1).toNat) ∧
       (s.params.shiftSource = .vy → 0x80 = (s.getV 2).toNat)) := by decide

/-- The flag-writing statements (AddRegisterCarries, SubtractionsBorrow, ShiftsMoveOneBit): a destination other
than `VF`, the nearest one. -/
theorem witness_destination : (14 : Reg) ≠ vF := by decide

/-- FlagConventionsOfVF, each clause on operands for which its flag is 1. -/
theorem witness_flags :
    (∃ t, exec (.addReg 1 2) (regs [(1, 0xFF), (2, 1)]) = .next t ∧ t.getV vF = 1) ∧
      (∃ t, exec (.subReg 1 2) (regs [(1, 7), (2, 7)]) = .next t ∧ t.getV vF = 1) ∧
      (∃ t, exec (.subn 1 2) (regs [(1, 7), (2, 7)]) = .next t ∧ t.getV vF = 1) ∧
      (∃ t, exec (.shr 1 2) (regs [(1, 1)]) = .next t ∧ t.getV vF = 1) ∧
      ∃ t, exec (.shl 1 2) (regs [(1, 0x80)]) = .next t ∧ t.getV vF = 1 :=
  ⟨⟨_, rfl, by decide⟩, ⟨_, rfl, by decide⟩, ⟨_, rfl, by decide⟩, ⟨_, rfl, by decide⟩, ⟨_, rfl, by decide⟩⟩

/-- BcdStoresThreeDigits: the last three bytes of memory, and one address further. -/
theorem witness_bcd :
    (∀ k, k < 3 → MayWrite { State.reset with i := 0xFFD } (0xFFD + k)) ∧
      ¬MayWrite { State.reset with i := 0xFFE } (0xFFE + 2) ∧
      (∀ j, j < 2 → MayWrite { State.reset with i := 0xFFE } (0xFFE + j)) ∧
      ¬MayWrite { powered reservedFault with i := 0x1FF } 0x1FF := by
  unfold MayWrite; decide

/-- StoreRegistersWritesRange, StoreThenLoadRestoresRegisters, StoreIsSeenByNextFetch and
LoadRegistersReadsRange: `V0..V1` in the last two bytes of memory, and one address further. -/
theorem witness_store :
    let s := { regs [(0, 0x12), (1, 0x34)] with i := 0xFFE }
    let t := { s with mem := [(0xFFE, 0x12), (0xFFF, 0x34)], pc := 0x202 }
    (∀ k, k ≤ (1 : Reg).val → MayWrite s (dataAddress s + k)) ∧ exec (.ldMemVx 1) s = .next t ∧
      dataAddress t + (1 : Reg).val < t.params.memSize ∧
      (1 : Reg).val = (0 : Reg).val + 1 ∧ (0xFFE : Word).toNat = dataAddress s + (0 : Reg).val ∧
      ¬MayWrite { s with i := 0xFFF } (0xFFF + 1) ∧ MayWrite { s with i := 0xFFF } 0xFFF ∧
      State.params { s with i := 0xFFF } = s.params ∧
      s.params.memSize ≤ dataAddress { s with i := 0xFFF } + (1 : Reg).val := by
  refine ⟨?_, rfl, ?_, ?_, ?_, ?_, ?_, ?_, ?_⟩ <;> (try unfold MayWrite) <;> decide

/-- DrawXorsSpriteIntoDisplay: no rows, the last byte of memory, and one row beyond it. -/
theorem witness_draw :
    let s := { State.reset with i := 0xFFF }
    (0 : Nibble).toNat = 0 ∧ dataAddress s + (1 : Nibble).toNat ≤ s.params.memSize ∧
      0 < (2 : Nibble).toNat ∧ s.params.memSize < dataAddress s + (2 : Nibble).toNat := by decide

/-- DrawTwiceRestoresDisplay: a sprite drawn twice, and the second draw collides. -/
theorem witness_drawTwice :
    let s := placed 0x300 [0x80] { State.reset with i := 0x300 }
    ∃ t w, dataAddress s + (1 : Nibble).toNat ≤ s.params.memSize ∧ exec (.drw 0 1 1) s = .next t ∧
      exec (.drw 0 1 1) t = .next w ∧ t.getV 0 = s.getV 0 ∧ t.getV 1 = s.getV 1 ∧ t.i = s.i ∧
      t.mem = s.mem ∧ t.params = s.params ∧ w.getV vF = 1 :=
  ⟨_, _, by decide, rfl, rfl, by decide, by decide, rfl, rfl, rfl, by decide⟩

/-- KeySkipsTestLatch and KeyOperationsSetOneKey, at the bound of the key codes. -/
theorem witness_keySkip :
    ((regs [(2, 15)]).getV 2).toNat = (15 : Key).val ∧ 15 < ((regs [(2, 16)]).getV 2).toNat ∧
      (15 : Nat) = (15 : Key).val ∧ 15 < (16 : Nat) := by decide

/-- WaitForKeyTakesLowestKey and GetPressedReturnsLowestKey: a held key, and none. -/
theorem witness_keyHeld :
    let s := holding [15, 3] State.reset
    s.keyHeld 3 = true ∧ (∀ j : Key, j < 3 → s.keyHeld j = false) ∧
      ∀ k : Key, State.reset.keyHeld k = false := by decide

/-- LoadCopiesImage: an image that just fits, and one byte more, in a store of four bytes. -/
theorem witness_load :
    let s := powered { Params.reference with memSize := 4, loadAddr := 2 }
    s.params.loadAddr + ([1, 2] : List Byte).length ≤ s.params.memSize ∧
      s.params.memSize < s.params.loadAddr + ([1, 2, 3] : List Byte).length := by decide

/-- InstructionsWriteOnlyTheirDestinations, NoInstructionReadsChangesOrSt and StaleStackEntriesAreUnobservable:
a return from a state whose stale entries differ. -/
theorem witness_exec :
    let s := { State.reset with sp := 1, stack := State.reset.stack.set 0 0x204 }
    let other : Vector Word 16 := s.stack.set 1 0x777
    exec .ret s = .next { s with sp := 0, pc := 0x204 } ∧
      (∀ k : Fin 16, k.val < s.sp.val → other[k] = s.stack[k]) ∧ other ≠ s.stack :=
  ⟨rfl, by decide, by decide⟩

/-- InstructionsWriteOnlyTheirDestinations, the memory and stack clauses: stores and a call that take place, with
the addresses and entries on both sides of each bound. -/
theorem witness_destinations :
    let s := { regs [(0, 0xEA)] with i := 0x300, sp := 15 }
    (∃ t, exec (.ldB 0) s = .next t ∧ t.fault = none) ∧
      (∃ t, exec (.ldMemVx 0) s = .next t ∧ t.fault = none) ∧
      (∃ t, exec (.call 0x300) s = .next t ∧ t.fault = none) ∧
      StoresTo s (.ldB 0) 0x302 ∧ ¬StoresTo s (.ldB 0) 0x303 ∧ ¬StoresTo s (.ldB 0) 0x2FF ∧
      StoresTo s (.ldMemVx 0) 0x300 ∧ ¬StoresTo s (.ldMemVx 0) 0x301 ∧ ¬StoresTo s .cls 0x300 ∧
      PushesTo s (.call 0x300) 15 ∧ ¬PushesTo s (.call 0x300) 14 ∧ ¬PushesTo s .ret 15 := by
  refine ⟨⟨_, rfl, rfl⟩, ⟨_, rfl, rfl⟩, ⟨_, rfl, rfl⟩, ?_⟩
  simp only [StoresTo, PushesTo]
  decide

/-- CallThenReturnResumes: entries below and above the pushed one. -/
theorem witness_callReturn :
    let s := { State.reset with sp := 7 }
    s.sp.val < 16 ∧ (6 : Fin 16).val ≠ s.sp.val ∧ (8 : Fin 16).val ≠ s.sp.val := by decide

/-- CanonicalMemoriesAreExtensional. -/
theorem witness_memory : Memory.wf [(0x200, 0x60), (0x201, 0x07)] := by decide

/-- StepKeepsInvariant: one step of the reset state. -/
theorem witness_stepInv : State.reset.Inv ∧ ∃ t, step State.reset = .next t :=
  ⟨witness_inv.1, _, rfl⟩

end Sys2Proof.Tests
end

section
/-! The opcode map of 30_encoding.md R75 against the nibble decoder: a row's mask and match are a test of the
word's fields, so the search among the 34 rows is a search among the rows of the word's major opcode, and
there each row tests what the decoder tests. -/

namespace Sys2Proof

/-! Two words are equal when their fields are, in each of the three word forms. -/

theorem word_eq_iff_nnn {w v : Word} : w = v ↔ fieldN1 w = fieldN1 v ∧ fieldNnn w = fieldNnn v where
  mp h := ⟨congrArg fieldN1 h, congrArg fieldNnn h⟩
  mpr := fun ⟨h1, h2⟩ => by rw [← wordNnn_fields w, h1, h2, wordNnn_fields]

theorem word_eq_iff_xkk {w v : Word} :
    w = v ↔ fieldN1 w = fieldN1 v ∧ fieldX w = fieldX v ∧ fieldKk w = fieldKk v where
  mp h := ⟨congrArg fieldN1 h, congrArg fieldX h, congrArg fieldKk h⟩
  mpr := fun ⟨h1, h2, h3⟩ => by rw [← wordXkk_fields w, h1, h2, h3, wordXkk_fields]

theorem word_eq_iff_xyn {w v : Word} :
    w = v ↔ fieldN1 w = fieldN1 v ∧ fieldX w = fieldX v ∧ fieldY w = fieldY v ∧ fieldN w = fieldN v where
  mp h := ⟨congrArg fieldN1 h, congrArg fieldX h, congrArg fieldY h, congrArg fieldN h⟩
  mpr := fun ⟨h1, h2, h3, h4⟩ => by rw [← wordXyn_fields w, h1, h2, h3, h4, wordXyn_fields]

/-! What a mask leaves of a field: all of it, or nothing. -/

theorem fieldN1_and_of_ones {w m : Word} (hm : fieldN1 m = BitVec.allOnes 4) :
    fieldN1 (w &&& m) = fieldN1 w :=
  BitVec.extractLsb'_and.trans ((congrArg (fieldN1 w &&& ·) hm).trans BitVec.and_allOnes)

theorem fieldX_and_of_zero {w m : Word} (hm : fieldN2 m = 0#4) : fieldX (w &&& m) = 0 :=
  congrArg BitVec.toFin
    (BitVec.extractLsb'_and.trans ((congrArg (fieldN2 w &&& ·) hm).trans BitVec.and_zero))

/-! The three kinds of row whose mask leaves operands free: which field numbers such a row selects. The fields of
the row's match stand as bit slices, which evaluate for each row of the table. -/

theorem selects_nnn {v w : Word} {b : Word → Instr} (hv : fieldNnn v = 0) :
    OpcodeRow.selects ⟨0xF000, v, b⟩ w = decide ((fieldN1 w).toNat = (v.extractLsb' 12 4).toNat) := by
  have h1 : fieldN1 (w &&& 0xF000) = fieldN1 w := fieldN1_and_of_ones rfl
  have h2 : fieldNnn (w &&& 0xF000) = 0 := BitVec.extractLsb'_and.trans BitVec.and_zero
  change _ = decide ((fieldN1 w).toNat = (fieldN1 v).toNat)
  simp only [OpcodeRow.selects, beq_eq_decide, word_eq_iff_nnn, h1, h2, hv, BitVec.toNat_inj, and_true]

theorem selects_xkk {v w : Word} {b : Word → Instr} (hv : fieldX v = 0) :
    OpcodeRow.selects ⟨0xF0FF, v, b⟩ w =
      decide ((fieldN1 w).toNat = (v.extractLsb' 12 4).toNat ∧
        (fieldKk w).toNat = (v.extractLsb' 0 8).toNat) := by
  have h1 : fieldN1 (w &&& 0xF0FF) = fieldN1 w := fieldN1_and_of_ones rfl
  have h2 : fieldX (w &&& 0xF0FF) = 0 := fieldX_and_of_zero rfl
  have h3 : fieldKk (w &&& 0xF0FF) = fieldKk w := BitVec.extractLsb'_and.trans BitVec.and_allOnes
  change _ = decide ((fieldN1 w).toNat = (fieldN1 v).toNat ∧ (fieldKk w).toNat = (fieldKk v).toNat)
  simp only [OpcodeRow.selects, beq_eq_decide, word_eq_iff_xkk, h1, h2, h3, hv, BitVec.toNat_inj, true_and]

theorem selects_xyn {v w : Word} {b : Word → Instr} (hv : fieldX v = 0 ∧ fieldY v = 0) :
    OpcodeRow.selects ⟨0xF00F, v, b⟩ w =
      decide ((fieldN1 w).toNat = (v.extractLsb' 12 4).toNat ∧
        (fieldN w).toNat = (v.extractLsb' 0 4).toNat) := by
  have h1 : fieldN1 (w &&& 0xF00F) = fieldN1 w := fieldN1_and_of_ones rfl
  have h2 : fieldX (w &&& 0xF00F) = 0 := fieldX_and_of_zero rfl
  have h3 : fieldY (w &&& 0xF00F) = 0 :=
    congrArg BitVec.toFin (BitVec.extractLsb'_and.trans BitVec.and_zero)
  have h4 : fieldN (w &&& 0xF00F) = fieldN w := BitVec.extractLsb'_and.trans BitVec.and_allOnes
  change _ = decide ((fieldN1 w).toNat = (fieldN1 v).toNat ∧ (fieldN w).toNat = (fieldN v).toNat)
  simp only [OpcodeRow.selects, beq_eq_decide, word_eq_iff_xyn, h1, h2, h3, h4, hv, BitVec.toNat_inj, true_and]

/-! The search among the rows of one major opcode. -/

/-- The rows of the opcode map under major opcode `n1`. -/
def opcodeRowsOf (n1 : Nat) : List OpcodeRow := opcodeTable.filter (fun r => (fieldN1 r.value).toNat == n1)

/-- Every row's mask fixes the major opcode. -/
theorem fieldN1_mask_of_mem : ∀ r ∈ opcodeTable, fieldN1 r.mask = BitVec.allOnes 4 := by decide

theorem fieldN1_of_selects {r : OpcodeRow} {w : Word} (hr : r ∈ opcodeTable) (hs : r.selects w = true) :
    fieldN1 r.value = fieldN1 w := by
  rw [← eq_of_beq hs, fieldN1_and_of_ones (fieldN1_mask_of_mem r hr)]

theorem find?_opcodeRowsOf (w : Word) :
    (opcodeRowsOf (fieldN1 w).toNat).find? (fun r => r.selects w) =
      opcodeTable.find? (fun r => r.selects w) := by
  rw [opcodeRowsOf, List.find?_filter]
  apply List.find?_congr
  intro r hr
  cases hs : r.selects w with
  | false => simp
  | true => simp [fieldN1_of_selects hr hs]

/-- What the opcode map reads from a word when only the rows under major opcode `n1` are searched. -/
def opcodeLookup (n1 : Nat) (w : Word) : Option Instr :=
  ((opcodeRowsOf n1).find? (fun r => r.selects w)).map (fun r => r.build w)

/-! The major opcodes with several rows: the rows test the field that the decoder matches on. -/

theorem decode0_eq_lookup (w : Word) : decode0 w = opcodeLookup 0x0 w := by
  have hr : opcodeRowsOf 0x0 = opcodeTableA.take 2 := rfl
  have hs {v : Word} {b : Word → Instr} : OpcodeRow.selects ⟨0xFFFF, v, b⟩ w = decide (w.toNat = v.toNat) := by
    have hm : w &&& 0xFFFF = w := BitVec.and_allOnes
    rw [OpcodeRow.selects, hm, beq_eq_decide, decide_eq_decide, BitVec.toNat_inj]
  simp only [opcodeLookup, hr, opcodeTableA, List.take, List.find?_cons, hs]
  unfold decode0
  split <;> simp_all

theorem decode8_eq_lookup {w : Word} (h1 : (fieldN1 w).toNat = 0x8) : decode8 w = opcodeLookup 0x8 w := by
  have hr : opcodeRowsOf 0x8 = opcodeTableB := rfl
  simp (disch := decide) only [opcodeLookup, hr, opcodeTableB, List.find?_cons, selects_xyn, h1]
  unfold decode8
  split <;> simp_all

theorem decodeE_eq_lookup {w : Word} (h1 : (fieldN1 w).toNat = 0xE) : decodeE w = opcodeLookup 0xE w := by
  have hr : opcodeRowsOf 0xE = opcodeTableC.drop 5 := rfl
  simp (disch := decide) only [opcodeLookup, hr, opcodeTableC, List.drop, List.find?_cons, selects_xkk, h1]
  unfold decodeE
  split <;> simp_all

theorem decodeF_eq_lookup {w : Word} (h1 : (fieldN1 w).toNat = 0xF) : decodeF w = opcodeLookup 0xF w := by
  have hr : opcodeRowsOf 0xF = opcodeTableD := rfl
  simp (disch := decide) only [opcodeLookup, hr, opcodeTableD, List.find?_cons, selects_xkk, h1]
  unfold decodeF
  split <;> simp_all

/-! The major opcodes with one row. -/

theorem opcodeLookup_nnn {n1 : Nat} {v w : Word} {b : Word → Instr} (h1 : (fieldN1 w).toNat = n1)
    (hr : opcodeRowsOf n1 = [⟨0xF000, v, b⟩]) (hv : fieldNnn v = 0 ∧ (fieldN1 v).toNat = n1) :
    opcodeLookup n1 w = some (b w) := by
  obtain ⟨hnnn, hn1⟩ := hv
  have hs : OpcodeRow.selects ⟨0xF000, v, b⟩ w = true := by
    rw [selects_nnn hnnn]
    exact decide_eq_true (h1.trans hn1.symm)
  rw [opcodeLookup, hr, List.find?_singleton, if_pos hs, Option.map_some]

theorem opcodeLookup_xy0 {n1 : Nat} {v w : Word} {b : Word → Instr} (h1 : (fieldN1 w).toNat = n1)
    (hr : opcodeRowsOf n1 = [⟨0xF00F, v, b⟩])
    (hv : (fieldX v = 0 ∧ fieldY v = 0) ∧ (fieldN1 v).toNat = n1 ∧ fieldN v = 0) :
    opcodeLookup n1 w = if fieldN w = 0 then some (b w) else none := by
  obtain ⟨hxy, hn1, hn⟩ := hv
  have hs : OpcodeRow.selects ⟨0xF00F, v, b⟩ w = true ↔ fieldN w = 0 := by
    rw [selects_xyn hxy, decide_eq_true_iff, ← fieldN1, ← fieldN, h1, hn1, hn, BitVec.toNat_inj]
    exact and_iff_right rfl
  rw [opcodeLookup, hr, List.find?_singleton]
  by_cases h0 : fieldN w = 0
  · rw [if_pos (hs.mpr h0), if_pos h0, Option.map_some]
  · rw [if_neg (mt hs.mp h0), if_neg h0, Option.map_none]

/-- By major opcode; the last arm of `decode` is unreachable, since a nibble is below 16. -/
theorem decode_eq_lookup (w : Word) : decode w = opcodeLookup (fieldN1 w).toNat w := by
  have hlt := (fieldN1 w).isLt
  unfold decode
  split <;> rename_i h1
  case h_1 => rw [h1, decode0_eq_lookup]
  case h_6 => rw [h1, opcodeLookup_xy0 h1 rfl (by decide)]
  case h_9 => rw [h1, decode8_eq_lookup h1]
  case h_10 => rw [h1, opcodeLookup_xy0 h1 rfl (by decide)]
  case h_15 => rw [h1, decodeE_eq_lookup h1]
  case h_16 => rw [h1, decodeF_eq_lookup h1]
  case h_17 => simp only [imp_false] at *; omega
  all_goals rw [h1, opcodeLookup_nnn h1 rfl (by decide)]

/-- Settles O3: both sides are the lookup among the rows of the word's major opcode. -/
theorem decodeAgreesWithOpcodeMap : Obligations.DecodeAgreesWithOpcodeMap :=
  ⟨rfl, fun w => by rw [decode_eq_lookup, opcodeLookup, find?_opcodeRowsOf]⟩

end Sys2Proof
end

section
/-! Control transfer (40_control.md): an absolute jump and a skip change `pc` alone. The four register-conditional
skips are one lemma, `skip_spec`, applied to their conditions read as naturals. -/

namespace Sys2Proof.Machine

theorem frame_goto (s : State) (a : Word) : Frame s (s.goto a) [] [] :=
  ⟨fun r _ => State.getV_goto s a r, fun p _ => by cases p <;> simp [State.AgreesOn]⟩

theorem frame_skipIf (s : State) (c : Bool) : Frame s (s.skipIf c) [] [] :=
  ⟨fun r _ => State.getV_skipIf s c r, fun p _ => by cases p <;> simp [State.AgreesOn]⟩

theorem toNat_pc_skipIf (s : State) (c : Bool) :
    (s.skipIf c).pc.toNat = (s.pc.toNat + if c then 4 else 2) % 65536 := by
  rw [State.skipIf_pc, BitVec.toNat_add]
  cases c <;> rfl

/-- What an instruction that only skips does (30_encoding.md R87), for any reading `P` of its condition. -/
theorem skip_spec {i : Instr} {s : State} {c : Bool} {P : Prop} [Decidable P]
    (hi : exec i s = .next (s.skipIf c)) (hc : c = true ↔ P) :
    ∃ t : State, exec i s = .next t ∧ Frame s t [] [] ∧
      t.pc.toNat = (s.pc.toNat + if P then 4 else 2) % 65536 :=
  ⟨_, hi, frame_skipIf s c, by rw [toNat_pc_skipIf, if_congr hc rfl rfl]⟩

theorem decide_eq_iff_toNat (a b : Byte) : decide (a = b) = true ↔ a.toNat = b.toNat :=
  decide_eq_true_iff.trans BitVec.toNat_inj.symm

theorem decide_ne_iff_toNat (a b : Byte) : decide (a ≠ b) = true ↔ a.toNat ≠ b.toNat :=
  decide_eq_true_iff.trans (not_congr BitVec.toNat_inj.symm)

/-- Settles O15: the target is `nnn` zero-extended. -/
theorem jumpSetsPc : Obligations.JumpSetsPc :=
  fun s nnn => ⟨s.goto (zextAddr nnn), rfl, toNat_zextAddr nnn, frame_goto s (zextAddr nnn)⟩

/-- Settles O20: two skips, on equality and on difference with the immediate. -/
theorem byteSkipsCompareImmediate : Obligations.ByteSkipsCompareImmediate :=
  fun s x kk =>
    ⟨skip_spec rfl (decide_eq_iff_toNat (s.getV x) kk), skip_spec rfl (decide_ne_iff_toNat (s.getV x) kk)⟩

/-- Settles O21: two skips, on equality and on difference of the registers. -/
theorem registerSkipsCompareRegisters : Obligations.RegisterSkipsCompareRegisters :=
  fun s x y =>
    ⟨skip_spec rfl (decide_eq_iff_toNat (s.getV x) (s.getV y)),
      skip_spec rfl (decide_ne_iff_toNat (s.getV x) (s.getV y))⟩

end Sys2Proof.Machine
end

section
/-! Results without a flag (41_alu.md section 2 and `8xy0`): each of these instructions is a `writeResult`, so
they share one lemma, `writeResult_spec`, and differ only in the byte written. -/

namespace Sys2Proof.Machine

theorem toNat_pc_writeResult (s : State) (x : Reg) (b : Byte) :
    (writeResult s x b).pc.toNat = (s.pc.toNat + 2) % 65536 := by
  rw [pc_writeResult, BitVec.toNat_add]
  rfl

/-- What an instruction that writes one register and no flag does, for any byte `b` it writes. -/
theorem writeResult_spec {i : Instr} {s : State} {x : Reg} {b : Byte}
    (hi : exec i s = .next (writeResult s x b)) :
    ∃ t : State, exec i s = .next t ∧ t.getV x = b ∧
      t.pc.toNat = (s.pc.toNat + 2) % 65536 ∧ Frame s t [x] [] :=
  ⟨_, hi, getV_writeResult s x b, toNat_pc_writeResult s x b, frame_writeResult s x b⟩

/-- Settles O22: the byte written is the immediate. -/
theorem loadByteWritesRegister : Obligations.LoadByteWritesRegister :=
  fun _ _ _ => writeResult_spec rfl

/-- Settles O23: the byte written is the sum of two bytes, which wraps modulo 256. -/
theorem addByteWrapsWithoutFlag : Obligations.AddByteWrapsWithoutFlag := by
  intro s x kk
  have hexec : exec (.addByte x kk) s = .next (writeResult s x (s.getV x + kk)) := rfl
  obtain ⟨t, ht, hv, hpc, hframe⟩ := writeResult_spec hexec
  exact ⟨t, ht, by rw [hv, BitVec.toNat_add], hpc, hframe⟩

/-- Settles O24: the byte written is the source register's. -/
theorem copyRegisterAssigns : Obligations.CopyRegisterAssigns :=
  fun _ _ _ => writeResult_spec rfl

end Sys2Proof.Machine
end

section
/-! Results in the index register (42_index_memory.md R150, R152): an instruction that only sets `I` goes to
`(s.setI w).advance 2`, so these share one lemma, `setIndex_spec`, and differ only in the word written. -/

namespace Sys2Proof.Machine

theorem frame_setI_advance (s : State) (w k : Word) : Frame s ((s.setI w).advance k) [] [.i] :=
  ⟨fun r _ => State.getV_setI s w r, fun p hp => by cases p <;> simp_all [State.AgreesOn]⟩

/-- What an instruction that only sets `I` does, for any reading `n` of the word it writes. -/
theorem setIndex_spec {i : Instr} {s : State} {w : Word} {n : Nat}
    (hi : exec i s = .next ((s.setI w).advance 2)) (hw : w.toNat = n) :
    ∃ t : State, exec i s = .next t ∧ t.i.toNat = n ∧
      t.pc.toNat = (s.pc.toNat + 2) % 65536 ∧ Frame s t [] [.i] :=
  ⟨_, hi, hw, toNat_add_two s.pc, frame_setI_advance s w 2⟩

/-- The glyph address of any byte, not only of a digit, fits in 16 bits. -/
theorem toNat_glyphAddress (b : Byte) :
    (BitVec.ofNat 16 (b.toNat * Config.glyphHeight)).toNat = b.toNat * 5 := by
  have hb := b.isLt
  rw [Config.glyphHeight, BitVec.toNat_ofNat, Nat.mod_eq_of_lt (by omega)]

/-- Settles O31: the words written are `nnn` zero-extended and the glyph address of `Vx`. -/
theorem indexLoadsSetI : Obligations.IndexLoadsSetI :=
  fun s =>
    ⟨fun nnn => setIndex_spec rfl (toNat_zextAddr nnn),
      fun x => setIndex_spec rfl (toNat_glyphAddress (s.getV x))⟩

end Sys2Proof.Machine
end

section
/-! What the host reads of the display and clears of its descriptor (43_display.md section 2). The buffer is the
flattened vector of rows, so an entry's row and column are the quotient and remainder of its index by the row
length. -/

namespace Sys2Proof.Machine

theorem toList_vectorFlatten {α : Type} {m n : Nat} (rows : Vector (Vector α m) n) :
    rows.flatten.toList = (rows.toList.map Vector.toList).flatten := by
  rw [Vector.flatten, Vector.toList_mk, Array.toList_flatten, Array.toList_map, List.map_map]
  rfl

theorem buffer_eq_flatten (s : State) :
    s.buffer = (s.fb.map fun row => row.map Bool.toNat).flatten.toList := by
  simp only [State.buffer, toList_vectorFlatten, Vector.toList_map, List.map_map, Function.comp_def]

theorem length_buffer (s : State) : s.buffer.length = 2048 := by
  rw [buffer_eq_flatten, Vector.length_toList]

/-- Entry `r * 64 + c` of the buffer is pixel `(r, c)` as a number. -/
theorem getElem?_buffer (s : State) (r : Fin 32) (c : Fin 64) :
    s.buffer[r.val * 64 + c.val]? = some (s.fb.get r c).toNat := by
  have hlt : r.val * 64 + c.val < 32 * 64 := by omega
  have hrow : (r.val * 64 + c.val) / 64 = r.val := by omega
  have hcol : (r.val * 64 + c.val) % 64 = c.val := by omega
  rw [buffer_eq_flatten, Vector.getElem?_toList, Vector.getElem?_eq_getElem hlt, Vector.getElem_flatten]
  simp [hrow, hcol, Framebuffer.get]

/-- Settles O41: the pixels are the buffer, and `Bool.toNat` of a pixel is 1 when it is lit and 0 otherwise. -/
theorem bufferIsRowMajor : Obligations.BufferIsRowMajor := by
  intro s
  refine ⟨s.buffer, rfl, length_buffer s, fun r c => ?_⟩
  rw [getElem?_buffer]
  cases s.fb.get r c <;> rfl

theorem frame_setChanges (s : State) (d : Option Damage) : Frame s (s.setChanges d) [] [.changes] :=
  ⟨fun r _ => State.getV_setChanges s d r, fun p hp => by cases p <;> simp_all [State.AgreesOn]⟩

/-- Settles O42: clearing is `setChanges none`, and reading the descriptor gives the state back. -/
theorem clearChangesResetsDescriptor : Obligations.ClearChangesResetsDescriptor :=
  fun s => ⟨s.setChanges none, rfl, State.setChanges_changes s none, State.setChanges_pc s none,
    frame_setChanges s none, rfl, rfl⟩

end Sys2Proof.Machine
end

section
/-! The blocking key read and the query for a held key (44_keyboard.md R203, R206): both are decided by
`getPressed`, so each case follows from `getPressed_some` or `getPressed_none`. -/

namespace Sys2Proof.Machine

/-- A key's number fits in a register. -/
theorem toNat_keyByte (k : Key) : (BitVec.ofNat 8 k.val).toNat = k.val := by
  rw [BitVec.toNat_ofNat, Nat.mod_eq_of_lt (by omega)]

theorem operate_getPressed (s : State) : operate .getPressed s = (s, .key s.getPressed) := rfl

/-- Settles O44: with a key held the instruction is a `writeResult` of the key's number; with none it waits. -/
theorem waitForKeyTakesLowestKey : Obligations.WaitForKeyTakesLowestKey := by
  refine fun s x => ⟨fun k hk hlow => ?held, fun hnone => ?waiting⟩
  case held =>
    obtain ⟨t, ht, hv, hpc, hframe⟩ := writeResult_spec (exec_ldVxK_held x (State.getPressed_some hk hlow))
    exact ⟨t, ht, by rw [hv, toNat_keyByte], hpc, hframe⟩
  case waiting => exact exec_ldVxK_waiting x (State.getPressed_none hnone)

/-- Settles O45: the answer is `getPressed`, and the state is given back. -/
theorem getPressedReturnsLowestKey : Obligations.GetPressedReturnsLowestKey := by
  refine fun s => ⟨fun k hk hlow => ?held, fun hnone => ?noneHeld⟩
  case held => rw [operate_getPressed, State.getPressed_some hk hlow]
  case noneHeld => rw [operate_getPressed, State.getPressed_none hnone]

end Sys2Proof.Machine
end

section
/-! The timer instructions (45_timers.md R220, R221, R222): a read of `DT` is a `writeResult` of its value, and a
write of a timer sets that piece and advances. -/

namespace Sys2Proof.Machine

theorem exec_ldVxDt (x : Reg) (s : State) : exec (.ldVxDt x) s = .next (writeResult s x s.dt) := rfl

theorem exec_ldDtVx (x : Reg) (s : State) :
    exec (.ldDtVx x) s = .next ((s.setDt (s.getV x)).advance 2) := rfl

theorem exec_ldStVx (x : Reg) (s : State) :
    exec (.ldStVx x) s = .next ((s.setSt (s.getV x)).advance 2) := rfl

theorem frame_setDt_advance (s : State) (b : Byte) (k : Word) : Frame s ((s.setDt b).advance k) [] [.dt] :=
  ⟨fun r _ => State.getV_setDt s b r, fun p hp => by cases p <;> simp_all [State.AgreesOn]⟩

theorem frame_setSt_advance (s : State) (b : Byte) (k : Word) : Frame s ((s.setSt b).advance k) [] [.st] :=
  ⟨fun r _ => State.getV_setSt s b r, fun p hp => by cases p <;> simp_all [State.AgreesOn]⟩

/-- Settles O47: one `writeResult` of `DT`, and one timer set to `Vx` by each of the other two. -/
theorem timerInstructionsMoveTimers : Obligations.TimerInstructionsMoveTimers := by
  refine fun s x => ⟨writeResult_spec (exec_ldVxDt x s), ?delay, ?sound⟩
  case delay =>
    exact ⟨_, exec_ldDtVx x s, State.setDt_dt s (s.getV x), toNat_add_two s.pc,
      frame_setDt_advance s (s.getV x) 2⟩
  case sound =>
    exact ⟨_, exec_ldStVx x s, State.setSt_st s (s.getV x), toNat_add_two s.pc,
      frame_setSt_advance s (s.getV x) 2⟩

end Sys2Proof.Machine
end

section
/-! The decoder and the encoder are inverse (30_encoding.md sections 1 and 2). One way an encoded word has the
fields it was built from; the other way a decoded word is put together again from the fields the decoder tested
and those it read. -/

namespace Sys2Proof

/-! A word of each form, from the fields the decoder tested and the operands it read. -/

theorem wordNnn_of_fieldN1 {w : Word} {a : Nibble} (h : (fieldN1 w).toNat = a.toNat) :
    wordNnn a (fieldNnn w) = w := by
  rw [← BitVec.eq_of_toNat_eq h, wordNnn_fields]

theorem wordXkk_of_fields {w : Word} {a : Nibble} {kk : Byte} (h1 : (fieldN1 w).toNat = a.toNat)
    (hk : (fieldKk w).toNat = kk.toNat) : wordXkk a (fieldX w) kk = w := by
  rw [← BitVec.eq_of_toNat_eq h1, ← BitVec.eq_of_toNat_eq hk, wordXkk_fields]

theorem wordXyn_of_fields {w : Word} {a n : Nibble} (h1 : (fieldN1 w).toNat = a.toNat)
    (hn : (fieldN w).toNat = n.toNat) : wordXyn a (fieldX w) (fieldY w) n = w := by
  rw [← BitVec.eq_of_toNat_eq h1, ← BitVec.eq_of_toNat_eq hn, wordXyn_fields]

theorem encode_of_decode0 {w : Word} {i : Instr} (h : decode0 w = some i) : encode i = w := by
  unfold decode0 at h
  split at h <;> cases h
  all_goals exact (BitVec.eq_of_toNat_eq ‹_›).symm

theorem encode_of_decode8 {w : Word} {i : Instr} (h1 : (fieldN1 w).toNat = 0x8)
    (h : decode8 w = some i) : encode i = w := by
  unfold decode8 at h
  split at h <;> cases h
  all_goals exact wordXyn_of_fields h1 ‹_›

theorem encode_of_decodeE {w : Word} {i : Instr} (h1 : (fieldN1 w).toNat = 0xE)
    (h : decodeE w = some i) : encode i = w := by
  unfold decodeE at h
  split at h <;> cases h
  all_goals exact wordXkk_of_fields h1 ‹_›

theorem encode_of_decodeF {w : Word} {i : Instr} (h1 : (fieldN1 w).toNat = 0xF)
    (h : decodeF w = some i) : encode i = w := by
  unfold decodeF at h
  split at h <;> cases h
  all_goals exact wordXkk_of_fields h1 ‹_›

/-- Settles O2: by major opcode, each arm's word form holds the fields the decoder read. -/
theorem encodeOfDecodeIsIdentity : Obligations.EncodeOfDecodeIsIdentity := by
  intro w i h
  unfold decode at h
  split at h <;> rename_i h1
  case h_1 => exact encode_of_decode0 h
  case h_6 | h_10 =>
    obtain ⟨h0, hi⟩ := Option.ite_none_right_eq_some.1 h
    cases hi
    exact wordXyn_of_fields h1 (congrArg BitVec.toNat h0)
  case h_9 => exact encode_of_decode8 h1 h
  case h_15 => exact encode_of_decodeE h1 h
  case h_16 => exact encode_of_decodeF h1 h
  case h_17 => cases h
  all_goals cases h
  case h_2 | h_3 | h_11 | h_12 => exact wordNnn_of_fieldN1 h1
  case h_14 => exact wordXyn_of_fields h1 rfl
  all_goals exact wordXkk_of_fields h1 rfl

/-- By the word form of the instruction: the decoder's tests meet the fields it was built from. -/
theorem decode_encode (i : Instr) : decode (encode i) = some i := by
  cases i with
  | cls | ret => rfl
  | jp nnn | call nnn | ldI nnn | jpV0 nnn => simp [encode, decode]
  | seByte x kk | sneByte x kk | ldByte x kk | addByte x kk | rnd x kk => simp [encode, decode]
  | seReg x y | sneReg x y | drw x y n => simp [encode, decode]
  | ldReg x y | orReg x y | andReg x y | xorReg x y | addReg x y | subReg x y | shr x y | subn x y
  | shl x y => simp [encode, decode, decode8]
  | skp x | sknp x => simp [encode, decode, decodeE]
  | ldVxDt x | ldVxK x | ldDtVx x | ldStVx x | addI x | ldF x | ldB x | ldMemVx x | ldVxMem x =>
    simp [encode, decode, decodeF]

theorem decodeBytes_encodeBytes (i : Instr) (rest : List Byte) :
    decodeBytes (encodeBytes i ++ rest) = .ok (i, rest) := by
  rw [encodeBytes, List.cons_append, List.cons_append, List.nil_append, decodeBytes, wordOfBytes_bytes,
    decode_encode]

/-- Settles O1: as a word, and as the two bytes of that word, high byte first. -/
theorem decodeOfEncodeIsIdentity : Obligations.DecodeOfEncodeIsIdentity :=
  fun i rest _ => ⟨decode_encode i, decodeBytes_encodeBytes i rest⟩

end Sys2Proof
end

section
/-! Which words the opcode map leaves to no row, to one, or to two (30_encoding.md sections 2 and 3). -/

namespace Sys2Proof

/-- Two rows fix some bit that both masks keep to different values. -/
def OpcodeRow.Conflicts (r q : OpcodeRow) : Prop := r.value &&& q.mask ≠ q.value &&& r.mask

theorem OpcodeRow.not_conflicts_of_selects {r q : OpcodeRow} {w : Word} (hr : r.selects w = true)
    (hq : q.selects w = true) : ¬r.Conflicts q := by
  rw [OpcodeRow.Conflicts, not_not, ← eq_of_beq hr, ← eq_of_beq hq, BitVec.and_assoc, BitVec.and_assoc,
    BitVec.and_comm r.mask]

theorem opcodeTable_pairwise_conflicts : opcodeTable.Pairwise OpcodeRow.Conflicts := by
  unfold OpcodeRow.Conflicts
  decide

/-- A list whose members stand pairwise in a relation, though no two members do, has at most one member. -/
theorem length_le_one_of_pairwise {α : Type} {R : α → α → Prop} {l : List α} (hp : l.Pairwise R)
    (h : ∀ a ∈ l, ∀ b ∈ l, ¬R a b) : l.length ≤ 1 := by
  match l, hp with
  | [], _ | [_], _ => simp
  | a :: b :: l, hp =>
    exact absurd (List.rel_of_pairwise_cons hp List.mem_cons_self) (h a (by simp) b (by simp))

/-- Settles O4: the rows that select a word do not conflict, but any two rows of the map do. -/
theorem opcodePatternsAreDisjoint : Obligations.OpcodePatternsAreDisjoint := by
  intro w
  refine length_le_one_of_pairwise (opcodeTable_pairwise_conflicts.filter _) fun r hr q hq => ?_
  exact OpcodeRow.not_conflicts_of_selects (List.mem_filter.1 hr).2 (List.mem_filter.1 hq).2

/-! The words without an instruction, under each major opcode that has minor opcodes. -/

theorem decode0_eq_none_iff (w : Word) : decode0 w = none ↔ w ≠ 0x00E0 ∧ w ≠ 0x00EE := by
  unfold decode0
  split <;> simp_all [← BitVec.toNat_inj]

theorem decode8_eq_none_iff (w : Word) : decode8 w = none ↔
    fieldN w ∈ ([0x8, 0x9, 0xA, 0xB, 0xC, 0xD, 0xF] : List Nibble) := by
  have hlt := (fieldN w).isLt
  unfold decode8
  split <;> simp_all [← BitVec.toNat_inj]
  omega

theorem decodeE_eq_none_iff (w : Word) : decodeE w = none ↔ fieldKk w ∉ ([0x9E, 0xA1] : List Byte) := by
  unfold decodeE
  split <;> simp_all [← BitVec.toNat_inj]

theorem decodeF_eq_none_iff (w : Word) : decodeF w = none ↔
    fieldKk w ∉ ([0x07, 0x0A, 0x15, 0x18, 0x1E, 0x29, 0x33, 0x55, 0x65] : List Byte) := by
  unfold decodeF
  split <;> simp_all [← BitVec.toNat_inj]

/-- Settles O5: by major opcode; only the six of the statement have a minor opcode to fail. -/
theorem illegalWordsAreExactly : Obligations.IllegalWordsAreExactly := by
  intro w
  have hlt := (fieldN1 w).isLt
  have key (a : Nibble) : fieldN1 w = a ↔ (fieldN1 w).toNat = a.toNat := BitVec.toNat_inj.symm
  unfold decode
  simp only [key]
  split <;> rename_i h1
  case h_1 => simp [h1, decode0_eq_none_iff]
  case h_6 | h_10 => simp [h1]
  case h_9 => simp [h1, decode8_eq_none_iff]
  case h_15 => simp [h1, decodeE_eq_none_iff]
  case h_16 => simp [h1, decodeF_eq_none_iff]
  case h_17 => exfalso; simp only [imp_false] at *; omega
  all_goals simp [h1]

/-- Settles O6: the decoder evaluated on each of the twelve words. -/
theorem sampleWordsDecode : Obligations.SampleWordsDecode := by
  unfold Obligations.SampleWordsDecode
  decide

end Sys2Proof
end

section
/-! Frames put together and narrowed, and the form of a fault. Later proofs combine frames by these and do not
open the pieces of the state again. -/

namespace Sys2Proof.Machine

theorem State.AgreesOn.trans {s t u : State} {p : Piece} (h1 : s.AgreesOn t p) (h2 : t.AgreesOn u p) :
    s.AgreesOn u p := by
  cases p
  case mem => exact fun a => (h2 a).trans (h1 a)
  all_goals exact Eq.trans h2 h1

theorem Frame.trans {s t u : State} {rs : List Reg} {ps : List Piece} (h1 : Frame s t rs ps)
    (h2 : Frame t u rs ps) : Frame s u rs ps :=
  ⟨fun r hr => (h2.1 r hr).trans (h1.1 r hr), fun p hp => (h1.2 p hp).trans (h2.2 p hp)⟩

/-- A piece that came back to its old value need not be listed. -/
theorem Frame.drop_piece {s t : State} {rs : List Reg} {p : Piece} {ps : List Piece}
    (h : Frame s t rs (p :: ps)) (hp : s.AgreesOn t p) : Frame s t rs ps := by
  refine ⟨h.1, fun q hq => ?_⟩
  by_cases hqp : q = p
  · exact hqp ▸ hp
  · exact h.2 q (by simp [hqp, hq])

/-- An instruction whose meaning is `faultIn` takes the whole fault and changes nothing else. -/
theorem faultsWith_of_exec {i : Instr} {s : State} {c : FaultCause} {info : Nat}
    (h : exec i s = faultIn i c info s) : FaultsWith i s c info := h

end Sys2Proof.Machine
end

section
/-! The jump with offset, the call and the return (40_control.md). The round trip of a call and a return is
derived from what each of the two does, not from their definitions. -/

namespace Sys2Proof.Machine

/-- Settles O16: the target is the 16-bit sum of two zero extensions. -/
theorem jumpV0AddsV0 : Obligations.JumpV0AddsV0 := by
  intro s nnn
  refine ⟨s.goto (zextAddr nnn + zextByte (s.getV 0)), rfl, ?_, frame_goto s _⟩
  rw [State.goto_pc, BitVec.toNat_add, toNat_zextAddr, toNat_zextByte]

/-- Settles O17: by whether the stack has a free entry. -/
theorem callPushesReturnAddress : Obligations.CallPushesReturnAddress := by
  refine fun s nnn => ⟨fun hfree => ?free, fun hfull => faultsWith_of_exec (exec_call_full nnn hfull)⟩
  refine ⟨_, exec_call_free nnn hfree, toNat_zextAddr nnn, rfl, fun k => ?entry, fun _ _ => rfl,
    fun p hp => ?piece⟩
  case entry =>
    simp only [State.goto_stack, Fin.getElem_fin, Vector.getElem_set, eq_comm]
  case piece => cases p <;> simp_all [State.AgreesOn]

/-- Settles O18: by whether the stack has an entry to pop. -/
theorem returnPopsPc : Obligations.ReturnPopsPc := by
  refine fun s => ⟨fun hsome => ?occupied, fun hnone => faultsWith_of_exec (exec_ret_empty hnone)⟩
  refine ⟨_, exec_ret_occupied hsome, Nat.succ_pred_eq_of_pos hsome, fun k hk => ?target, fun _ _ => rfl,
    fun p hp => ?piece⟩
  case target =>
    have hk' : s.sp.val - 1 = k.val := by omega
    simp only [State.goto_pc, Fin.getElem_fin, hk']
  case piece => cases p <;> simp_all [State.AgreesOn]

/-- Settles O19: the return pops the entry the call pushed, and leaves every entry in place. -/
theorem callThenReturnResumes : Obligations.CallThenReturnResumes := by
  intro s nnn hfree
  obtain ⟨t, ht, -, htsp, htstack, htframe⟩ := (callPushesReturnAddress s nnn).1 hfree
  obtain ⟨u, hu, husp, hupc, huframe⟩ := (returnPopsPc t).1 (by omega)
  have hsp : u.sp = s.sp := Fin.ext (by omega)
  have hstack : u.stack = t.stack := huframe.2 .stack (by decide)
  have hpc : u.pc = s.pc + 2 := by
    rw [hupc ⟨s.sp.val, hfree⟩ htsp.symm, htstack, if_pos rfl]
  have hframe : Frame s u [] [.sp, .stack] := htframe.trans (huframe.mono (by simp) (by simp))
  refine ⟨t, u, ht, hu, ?_, hsp, fun k hk => ?_, hframe.drop_piece hsp⟩
  · rw [hpc, toNat_add_two]
  · rw [hstack, htstack, if_neg hk]

end Sys2Proof.Machine
end

section
/-! The arithmetic, logic and shift unit (41_alu.md section 3). A result without a flag is a `writeResult`, a
result with one is a `writeFlagged`; each has one lemma here, and the instructions differ only in the bytes they
give it. -/

namespace Sys2Proof.Machine

/-- What an instruction that writes one register does, read bit by bit. -/
theorem writeResult_bits_spec {i : Instr} {s : State} {x : Reg} {b : Byte} {bit : Nat → Bool}
    (hi : exec i s = .next (writeResult s x b)) (hbit : ∀ j, b.getLsbD j = bit j) :
    ∃ t : State, exec i s = .next t ∧ Frame s t [x] [] ∧ t.pc.toNat = (s.pc.toNat + 2) % 65536 ∧
      ∀ j : Nat, j < 8 → (t.getV x).getLsbD j = bit j := by
  obtain ⟨t, ht, hv, hpc, hframe⟩ := writeResult_spec hi
  exact ⟨t, ht, hframe, hpc, fun j _ => by rw [hv, hbit]⟩

/-- Settles O25: each result's bits are those of the operation on the operands' bits. -/
theorem logicWorksBitwiseWithoutFlag : Obligations.LogicWorksBitwiseWithoutFlag :=
  fun _ _ _ =>
    ⟨writeResult_bits_spec rfl fun _ => BitVec.getLsbD_or, writeResult_bits_spec rfl fun _ => BitVec.getLsbD_and,
      writeResult_bits_spec rfl fun _ => BitVec.getLsbD_xor⟩

/-- What an instruction that writes a result and a flag does, for any readings of the two bytes. -/
theorem writeFlagged_spec {i : Instr} {s : State} {x : Reg} {b f : Byte} {result flag : Nat}
    (hi : exec i s = .next (writeFlagged s x b f)) (hb : b.toNat = result) (hf : f.toNat = flag) :
    ∃ t : State, exec i s = .next t ∧ Frame s t [x, vF] [] ∧ t.pc.toNat = (s.pc.toNat + 2) % 65536 ∧
      (x ≠ vF → (t.getV x).toNat = result) ∧ (t.getV vF).toNat = flag :=
  ⟨_, hi, frame_writeFlagged s x b f, toNat_add_two s.pc, fun hx => by rw [getV_writeFlagged s b f hx, hb],
    by rw [getV_vF_writeFlagged, hf]⟩

theorem toNat_carryFlag (a b : Byte) :
    (carryFlag a b).toNat = if a.toNat + b.toNat > 255 then 1 else 0 := by
  simp only [carryFlag, toNat_flagByte, decide_eq_true_iff]

theorem toNat_notBorrowFlag (a b : Byte) :
    (notBorrowFlag a b).toNat = if a.toNat ≥ b.toNat then 1 else 0 := by
  simp only [notBorrowFlag, toNat_flagByte, decide_eq_true_iff]

/-- Settles O26: the sum of two bytes wraps modulo 256, and the flag is the carry. -/
theorem addRegisterCarries : Obligations.AddRegisterCarries :=
  fun s x y => writeFlagged_spec rfl (BitVec.toNat_add ..) (toNat_carryFlag (s.getV x) (s.getV y))

theorem intCast_toNat_sub (a b : Byte) : ((a - b).toNat : Int) = (a.toNat - b.toNat : Int) % 256 := by
  have ha := a.isLt
  have hb := b.isLt
  rw [BitVec.toNat_sub]
  omega

/-- What an instruction that writes a difference and its NOT borrow does. -/
theorem subtraction_spec {i : Instr} {s : State} {x : Reg} {a b : Byte}
    (hi : exec i s = .next (writeFlagged s x (a - b) (notBorrowFlag a b))) :
    ∃ t : State, exec i s = .next t ∧ Frame s t [x, vF] [] ∧ t.pc.toNat = (s.pc.toNat + 2) % 65536 ∧
      (x ≠ vF → ((t.getV x).toNat : Int) = (a.toNat - b.toNat : Int) % 256) ∧
      (t.getV vF).toNat = if a.toNat ≥ b.toNat then 1 else 0 := by
  obtain ⟨t, ht, hframe, hpc, hv, hf⟩ := writeFlagged_spec hi rfl (toNat_notBorrowFlag a b)
  exact ⟨t, ht, hframe, hpc, fun hx => by rw [hv hx, intCast_toNat_sub], hf⟩

/-- Settles O27: two subtractions, with the operands exchanged. -/
theorem subtractionsBorrow : Obligations.SubtractionsBorrow :=
  fun _ _ _ => ⟨subtraction_spec rfl, subtraction_spec rfl⟩

theorem toNat_shiftOperand {s : State} {x y : Reg} {src : Nat}
    (hx : s.params.shiftSource = .vx → src = (s.getV x).toNat)
    (hy : s.params.shiftSource = .vy → src = (s.getV y).toNat) : (shiftOperand s x y).toNat = src := by
  unfold shiftOperand
  cases hs : s.params.shiftSource with
  | vx => exact (hx hs).symm
  | vy => exact (hy hs).symm

theorem toNat_shiftRight_one (b : Byte) : (b >>> 1).toNat = b.toNat / 2 := by
  rw [BitVec.toNat_ushiftRight, Nat.shiftRight_eq_div_pow, Nat.pow_one]

theorem toNat_shiftLeft_one (b : Byte) : (b <<< 1).toNat = b.toNat * 2 % 256 := by
  rw [BitVec.toNat_shiftLeft, Nat.shiftLeft_eq, Nat.pow_one]

/-- Settles O28: `src` is the shift operand's value, and a shift by one bit halves or doubles it. -/
theorem shiftsMoveOneBit : Obligations.ShiftsMoveOneBit := by
  intro s x y src hx hy
  have hsrc := toNat_shiftOperand hx hy
  exact ⟨writeFlagged_spec rfl (by rw [toNat_shiftRight_one, hsrc]) (by rw [toNat_shiftedOutLow, hsrc]),
    writeFlagged_spec rfl (by rw [toNat_shiftLeft_one, hsrc]) (by rw [toNat_shiftedOutHigh, hsrc])⟩

theorem flagByte_eq_one_iff (c : Bool) : flagByte c = 1 ↔ c = true := by
  cases c <;> decide

theorem flagByte_eq_zero_or_one (c : Bool) : flagByte c = 0 ∨ flagByte c = 1 := by
  cases c <;> decide

theorem shiftedOutLow_eq (b : Byte) : shiftedOutLow b = flagByte (b.getLsbD 0) := by
  apply BitVec.eq_of_toNat_eq
  rw [toNat_shiftedOutLow, toNat_flagByte, BitVec.getLsbD, Nat.testBit_zero]
  split <;> simp_all

theorem shiftedOutHigh_eq (b : Byte) : shiftedOutHigh b = flagByte (b.getLsbD 7) := by
  have hb := b.isLt
  apply BitVec.eq_of_toNat_eq
  rw [toNat_shiftedOutHigh, toNat_flagByte, BitVec.getLsbD, Nat.testBit_eq_decide_div_mod_eq]
  split <;> simp_all <;> omega

/-- What `VF` holds after an instruction that writes the flag of a condition, for any reading `P` of it. -/
theorem flag_convention {i : Instr} {s t : State} {x : Reg} {b f : Byte} {c : Bool} {P : Prop}
    (hi : exec i s = .next (writeFlagged s x b f)) (hf : f = flagByte c) (hc : c = true ↔ P)
    (ht : exec i s = .next t) :
    (t.getV vF = 1 ↔ P) ∧ (t.getV vF = 0 ∨ t.getV vF = 1) := by
  cases hi.symm.trans ht
  rw [getV_vF_writeFlagged, hf]
  exact ⟨(flagByte_eq_one_iff c).trans hc, flagByte_eq_zero_or_one c⟩

/-- Settles O29: the five instructions write the flag of a comparison or of the bit shifted out. -/
theorem flagConventionsOfVF : Obligations.FlagConventionsOfVF :=
  fun _ _ _ _ =>
    ⟨flag_convention rfl rfl decide_eq_true_iff, flag_convention rfl rfl decide_eq_true_iff,
      flag_convention rfl rfl decide_eq_true_iff, flag_convention rfl (shiftedOutLow_eq _) Iff.rfl,
      flag_convention rfl (shiftedOutHigh_eq _) Iff.rfl⟩

theorem frame_drawn (s : State) : Frame s s.drawn [] [.draws] :=
  ⟨fun r _ => State.getV_drawn s r, fun p hp => by cases p <;> simp_all [State.AgreesOn]⟩

theorem frame_rndWith (r : Byte) (x : Reg) (kk : Byte) (s : State) :
    Frame s (rndWith r x kk s) [x] [.draws] :=
  ((frame_drawn s).mono (by simp) (by simp)).trans ((frame_writeResult s.drawn x _).mono (by simp) (by simp))

/-- Settles O30: the register takes the byte drawn, masked, and the counter goes on by one. -/
theorem randomByteIsMasked : Obligations.RandomByteIsMasked := by
  intro s x kk
  refine ⟨rndWith s.nextRandom x kk s, rfl, rfl, toNat_add_two s.pc, frame_rndWith s.nextRandom x kk s,
    fun j _ => ?_⟩
  rw [rndWith, getV_writeResult, BitVec.getLsbD_and, State.nextRandom]

end Sys2Proof.Machine
end

section
/-! The index register's sum and the memory transfers (42_index_memory.md). `Fx33` and `Fx55` are one store from `I`,
of the three digits or of the registers, so they share `storeFrom_spec` and `storeFrom_faults`. What is stored is
read back by `Fx65` and by the next fetch through the statements about the transfers themselves. -/

namespace Sys2Proof.Machine

/-- Settles O32: the word written is a 16-bit sum. -/
theorem addIndexWrapsAtSixteenBits : Obligations.AddIndexWrapsAtSixteenBits :=
  fun s x => setIndex_spec rfl (by rw [BitVec.toNat_add, toNat_zextByte])

theorem frame_setMem_advance (s : State) (m : Memory) (k : Word) : Frame s ((s.setMem m).advance k) [] [.mem] :=
  ⟨fun r _ => State.getV_setMem s m r, fun p hp => by cases p <;> simp_all [State.AgreesOn]⟩

/-- What a store from `I` does when each of its bytes may be written. -/
theorem storeFrom_spec {i : Instr} {bytes : List Byte} {s : State} (hi : exec i s = storeFrom i bytes s)
    (hmay : ∀ k, k < bytes.length → MayWrite s (dataAddress s + k)) :
    ∃ t : State, exec i s = .next t ∧ t.pc.toNat = (s.pc.toNat + 2) % 65536 ∧
      (∀ k b, bytes[k]? = some b → t.mem.read (dataAddress s + k) = b) ∧
      (∀ a, a < dataAddress s ∨ dataAddress s + bytes.length ≤ a → t.mem.read a = s.mem.read a) ∧
      Frame s t [] [.mem] := by
  have hnext := storeFrom_ok (i := i) fun k hk => (mayWrite_iff s _).1 (hmay k hk)
  refine ⟨_, hi.trans hnext, toNat_add_two s.pc, fun k b hb => ?_,
    fun a ha => read_storeFrom_outside hnext ha, frame_setMem_advance s _ 2⟩
  rw [State.advance_mem, State.setMem_mem, Memory.read_writeSlice, if_pos (Nat.le_add_right ..),
    Nat.add_sub_cancel_left, hb, Option.getD_some]

/-- A store from `I` faults with the lowest address it may not write. -/
theorem storeFrom_faults {i : Instr} {bytes : List Byte} {s : State} {k : Nat}
    (hi : exec i s = storeFrom i bytes s) (hk : k < bytes.length) (hbad : ¬MayWrite s (dataAddress s + k))
    (hlow : ∀ j, j < k → MayWrite s (dataAddress s + j)) :
    FaultsWith i s .memOutOfBounds (dataAddress s + k) := by
  rw [mayWrite_iff, Bool.not_eq_true] at hbad
  exact faultsWith_of_exec (hi.trans (storeFrom_error hk hbad fun j hj => (mayWrite_iff s _).1 (hlow j hj)))

theorem exec_ldB (x : Reg) (s : State) :
    exec (.ldB x) s = storeFrom (.ldB x) (bcdDigits (s.getV x)) s := rfl

theorem exec_ldMemVx (x : Reg) (s : State) :
    exec (.ldMemVx x) s = storeFrom (.ldMemVx x) ((regsUpTo x).map s.getV) s := rfl

/-- A decimal digit of a byte fits in a byte. -/
theorem toNat_bcdDigits (b : Byte) :
    (bcdDigits b).map BitVec.toNat = [b.toNat / 100, b.toNat / 10 % 10, b.toNat % 10] := by
  have hb := b.isLt
  simp only [bcdDigits, List.map_cons, List.map_nil, BitVec.toNat_ofNat, List.cons.injEq, and_true]
  omega

/-- Settles O33: the store of the three digits. -/
theorem bcdStoresThreeDigits : Obligations.BcdStoresThreeDigits := by
  refine fun s x => ⟨fun hmay => ?stored, fun k hk => storeFrom_faults (exec_ldB x s) hk⟩
  obtain ⟨t, ht, hpc, hread, hout, hframe⟩ := storeFrom_spec (exec_ldB x s) hmay
  have hdigits := toNat_bcdDigits (s.getV x)
  simp only [bcdDigits, List.map_cons, List.map_nil, List.cons.injEq, and_true] at hdigits
  obtain ⟨hhundreds, htens, hunits⟩ := hdigits
  refine ⟨t, ht, hpc, ?_, ?_, ?_, hout, hframe⟩
  · rw [← hhundreds]
    exact congrArg BitVec.toNat (hread 0 _ rfl)
  · rw [← htens]
    exact congrArg BitVec.toNat (hread 1 _ rfl)
  · rw [← hunits]
    exact congrArg BitVec.toNat (hread 2 _ rfl)

theorem length_storedRegs (s : State) (x : Reg) : ((regsUpTo x).map s.getV).length = x.val + 1 := by
  rw [List.length_map, regsUpTo_length]

/-- Register `r` is byte number `r` of the bytes `Fx55` stores. -/
theorem getElem?_storedRegs (s : State) {x r : Reg} (h : r ≤ x) :
    ((regsUpTo x).map s.getV)[r.val]? = some (s.getV r) := by
  have hlt : r.val < (regsUpTo x).length := by
    rw [regsUpTo_length]
    exact Nat.lt_succ_of_le h
  rw [List.getElem?_map, List.getElem?_eq_getElem hlt, regsUpTo_getElem, Option.map_some]

/-- Settles O34: the store of the registers `V0` to `Vx`. -/
theorem storeRegistersWritesRange : Obligations.StoreRegistersWritesRange := by
  have hlt (s : State) (x : Reg) (k : Nat) : k < ((regsUpTo x).map s.getV).length ↔ k ≤ x.val := by
    rw [length_storedRegs, Nat.lt_succ_iff]
  refine fun s x => ⟨fun hmay => ?stored, fun k hk => storeFrom_faults (exec_ldMemVx x s) ((hlt s x k).2 hk)⟩
  obtain ⟨t, ht, hpc, hread, hout, hframe⟩ :=
    storeFrom_spec (exec_ldMemVx x s) fun k hk => hmay k ((hlt s x k).1 hk)
  rw [length_storedRegs] at hout
  exact ⟨t, ht, hpc, fun r hr => hread r.val _ (getElem?_storedRegs s hr), hout, hframe⟩

/-- The registers `V0` to `Vx` paired with consecutive bytes. -/
theorem regsUpTo_zip (x : Reg) (f : Nat → Byte) :
    (regsUpTo x).zip ((List.range (x.val + 1)).map f) = (regsUpTo x).map fun r => (r, f r.val) := by
  apply List.ext_getElem
  · simp [regsUpTo_length]
  · intro k h1 h2
    simp [regsUpTo_getElem]

theorem getV_setVs_regsUpTo (s : State) {x r : Reg} (f : Nat → Byte) (h : r ≤ x) :
    (s.setVs ((regsUpTo x).zip ((List.range (x.val + 1)).map f))).getV r = f r.val := by
  rw [regsUpTo_zip]
  refine State.getV_setVs_of_mem ?_ (List.mem_map.2 ⟨r, (mem_regsUpTo x r).2 h, rfl⟩)
  simp only [List.map_map, Function.comp_def, List.map_id', regsUpTo_nodup]

theorem frame_setVs_advance (s : State) (l : List (Reg × Byte)) (k : Word) :
    Frame s ((s.setVs l).advance k) (l.map Prod.fst) [] :=
  ⟨fun r hr => State.getV_setVs_of_not_mem s l r hr, fun p _ => by cases p <;> simp [State.AgreesOn]⟩

/-- Settles O35: by whether the highest address read is in memory. -/
theorem loadRegistersReadsRange : Obligations.LoadRegistersReadsRange := by
  refine fun s x => ⟨fun hin => ?loaded, fun hout => faultsWith_of_exec (exec_ldVxMem_error hout)⟩
  refine ⟨_, exec_ldVxMem_ok hin, ?_, fun r hr => getV_setVs_regsUpTo s _ hr, ?_⟩
  · rw [State.advance_pc, State.setVs_pc, toNat_add_two]
  · refine (frame_setVs_advance s _ 2).mono (fun r hr => ?_) (by simp)
    simpa [regsUpTo_zip] using hr

/-- Settles O36: the load reads the bytes the store wrote, since it reads from the same addresses. -/
theorem storeThenLoadRestoresRegisters : Obligations.StoreThenLoadRestoresRegisters := by
  intro s t u x hmay ht hmem hi hparams
  obtain ⟨t', ht', -, hread, -, -, hframe⟩ := (storeRegistersWritesRange s x).1 hmay
  cases ht.symm.trans ht'
  have haddr : dataAddress u = dataAddress s := congrArg BitVec.toNat (hi.trans (hframe .i (by decide)))
  have hsize : u.params = s.params := hparams.trans (hframe .params (by decide))
  obtain ⟨w, hw, -, hload, -⟩ := (loadRegistersReadsRange u x).1 (by
    rw [haddr, hsize]
    exact (hmay x.val le_rfl).1)
  exact ⟨w, hw, fun r hr => by rw [hload r hr, hmem, haddr, hread r hr]⟩

/-- Settles O37: the fetch reads the two neighbouring bytes the store wrote. -/
theorem storeIsSeenByNextFetch : Obligations.StoreIsSeenByNextFetch := by
  intro s t x r q p hmay ht hq hqr hp
  obtain ⟨t', ht', -, hread, -, -, hframe⟩ := (storeRegistersWritesRange s x).1 hmay
  cases ht.symm.trans ht'
  have hparams : t.params = s.params := hframe .params (by decide)
  have hnext : p.toNat + 1 = dataAddress s + q.val := by omega
  have hin : p.toNat + 1 < t.params.memSize := by
    rw [hnext, hparams]
    exact (hmay q.val hq).1
  have hfetch := State.fetch_ok (s := { t with pc := p }) hin
  have hr : r ≤ x := le_trans (Fin.le_def.2 (by omega)) hq
  rwa [hnext, hp, hread q hq, hread r hr] at hfetch

end Sys2Proof.Machine
end

section
/-! The display instructions (43_display.md section 1). A draw is known by `exec_drw_next`: each pixel is XORed with
the sprite's bit, so two draws of one sprite cancel, and the second collides where the first lit a pixel. -/

namespace Sys2Proof.Machine

/-- Settles O38: the display is blank. -/
theorem clearDisplayZeroesPixels : Obligations.ClearDisplayZeroesPixels :=
  fun s => ⟨((s.setFb Framebuffer.blank).setChanges (some .cleared)).advance 2, rfl, Framebuffer.get_blank, rfl,
    toNat_add_two s.pc, fun _ _ => rfl, fun p hp => by cases p <;> simp_all [State.AgreesOn]⟩

theorem frame_draw (s : State) (f : Framebuffer) (d : Option Damage) (b : Byte) (k : Word) :
    Frame s ((State.setV { s with fb := f, changes := d } vF b).advance k) [vF] [.fb, .changes] := by
  refine ⟨fun r hr => ?_, fun p hp => by cases p <;> simp_all [State.AgreesOn]⟩
  exact State.getV_setV_ne { s with fb := f, changes := d } b (by simpa using hr)

/-- Settles O39: by whether the sprite's bytes are in memory. -/
theorem drawXorsSpriteIntoDisplay : Obligations.DrawXorsSpriteIntoDisplay := by
  refine fun s x y n => ⟨fun hin => ?drawn, fun hn hout => faultsWith_of_exec (exec_drw_error hn hout)⟩
  obtain ⟨f, hit, hnext, hpixels, hhit⟩ := exec_drw_next (x := x) (y := y) hin
  refine ⟨_, hnext, toNat_add_two s.pc, hpixels, ?_, ?_, rfl, frame_draw s f _ _ 2⟩
  · rw [State.getV_advance, State.getV_setV_self, flagByte_eq_one_iff, hhit]
  · rw [State.getV_advance, State.getV_setV_self]
    exact flagByte_eq_zero_or_one hit

/-- What a sprite covers depends on memory and `I` alone. -/
theorem spriteCovers_congr {s u : State} (hmem : ∀ a, u.mem.read a = s.mem.read a) (hi : u.i = s.i)
    (xv yv : Byte) (n : Nat) (r : Fin 32) (c : Fin 64) :
    SpriteCovers u xv yv n r c ↔ SpriteCovers s xv yv n r c := by
  simp only [SpriteCovers, dataAddress, hmem, hi]

/-! A pixel XORed twice with one bit, and where the second XOR meets a lit pixel. -/

theorem xor_xor_iff (a b : Prop) : ¬(¬(a ↔ b) ↔ b) ↔ a := by tauto

theorem xor_and_iff (a b : Prop) : ¬(a ↔ b) ∧ b ↔ ¬a ∧ b := by tauto

/-- Settles O40: two XORs with one sprite cancel, and the second meets a lit pixel where the first lit it. -/
theorem drawTwiceRestoresDisplay : Obligations.DrawTwiceRestoresDisplay := by
  intro s t u w x y x2 y2 n hin ht hfb hmem hi hparams hx hy hw
  obtain ⟨t', ht', -, hpixels, hhit, hbit, -, hframe⟩ := (drawXorsSpriteIntoDisplay s x y n).1 hin
  cases ht.symm.trans ht'
  have hread : ∀ a, u.mem.read a = s.mem.read a := fun a => by rw [hmem, hframe.2 .mem (by simp) a]
  have hi' : u.i = s.i := hi.trans (hframe.2 .i (by simp))
  have haddr : dataAddress u = dataAddress s := congrArg BitVec.toNat hi'
  have hsize : u.params = s.params := hparams.trans (hframe.2 .params (by simp))
  obtain ⟨w', hw', -, hpixels2, hhit2, -⟩ :=
    (drawXorsSpriteIntoDisplay u x2 y2 n).1 (by rwa [haddr, hsize])
  cases hw.symm.trans hw'
  simp only [hx, hy, hfb, spriteCovers_congr hread hi', hpixels] at hpixels2 hhit2
  refine ⟨?first, Framebuffer.ext_get fun r c => ?restored, ?second⟩
  case first =>
    rcases hbit with h0 | h1
    · refine .inr ⟨h0, fun r c hlit hcov => ?_⟩
      exact absurd (h0.symm.trans (hhit.2 ⟨r, c, hlit, hcov⟩)) (by decide)
    · exact .inl ⟨h1, hhit.1 h1⟩
  case restored =>
    rw [Bool.eq_iff_iff, hpixels2, xor_xor_iff]
  case second =>
    simp only [hhit2, xor_and_iff, Bool.not_eq_true]

end Sys2Proof.Machine
end

section
/-! The key skips, and the host's operations on keys, timers, memory and the whole state (44_keyboard.md,
45_timers.md, 70_reset_and_hazards.md section 1). -/

namespace Sys2Proof.Machine

/-- Settles O43: two skips when `Vx` names a key, and two faults when it does not. -/
theorem keySkipsTestLatch : Obligations.KeySkipsTestLatch := by
  refine fun s x => ⟨fun k hk => ⟨skip_spec (exec_skp_key hk) Iff.rfl, ?sknp⟩,
    fun h => ⟨faultsWith_of_exec (exec_skp_noKey h), faultsWith_of_exec (exec_sknp_noKey h)⟩⟩
  case sknp =>
    have hnot : (!s.keyHeld k) = true ↔ ¬s.keyHeld k = true := by simp
    simpa only [ite_not] using skip_spec (exec_sknp_key hk) hnot

theorem setKeyCode_key (s : State) (k : Key) (held : Bool) :
    s.setKeyCode k.val held = (s.setKeyState k held, .done) := dif_pos k.isLt

theorem setKeyCode_refused {code : Nat} (s : State) (held : Bool) (h : 15 < code) :
    s.setKeyCode code held = (s, .refused (.keyCodeOutOfRange code)) := dif_neg (by omega)

theorem isPressed_key (s : State) (k : Key) : s.isPressed k.val = .pressed (s.keyHeld k) := dif_pos k.isLt

theorem isPressed_refused {code : Nat} (s : State) (h : 15 < code) :
    s.isPressed code = .refused (.keyCodeOutOfRange code) := dif_neg (by omega)

theorem frame_setKeyState (s : State) (k : Key) (held : Bool) : Frame s (s.setKeyState k held) [] [.keys] :=
  ⟨fun r _ => State.getV_setKeyState s k held r, fun p hp => by cases p <;> simp_all [State.AgreesOn]⟩

/-- Settles O46: by whether the code is the number of a key. -/
theorem keyOperationsSetOneKey : Obligations.KeyOperationsSetOneKey := by
  refine fun s code => ⟨?key, fun h => ?refused⟩
  case key =>
    rintro k rfl
    refine ⟨⟨_, setKeyCode_key s k true, rfl, frame_setKeyState s k true, fun q => ?_⟩,
      ⟨_, setKeyCode_key s k false, rfl, frame_setKeyState s k false, fun q => ?_⟩,
      congrArg (Prod.mk s) (isPressed_key s k)⟩
    · rw [State.keyHeld_setKeyState]
      by_cases hq : q = k <;> simp [hq]
    · rw [State.keyHeld_setKeyState]
      by_cases hq : q = k <;> simp [hq]
  case refused =>
    exact ⟨setKeyCode_refused s true h, setKeyCode_refused s false h,
      congrArg (Prod.mk s) (isPressed_refused s h)⟩

theorem toNat_countDown (b : Byte) : (if b = 0 then b else b - 1).toNat = b.toNat - 1 := by
  by_cases h : b = 0
  · simp [h]
  · rw [if_neg h]
    bv_omega

theorem frame_updateTimers (s : State) : Frame s s.updateTimers [] [.dt, .st] :=
  ⟨fun r _ => State.getV_updateTimers s r, fun p hp => by cases p <;> simp_all [State.AgreesOn]⟩

/-- Settles O48: each counter goes down by the saturating subtraction of naturals. -/
theorem updateTimersSaturates : Obligations.UpdateTimersSaturates :=
  fun s => ⟨s.updateTimers, rfl, toNat_countDown s.dt, toNat_countDown s.st, rfl, frame_updateTimers s⟩

theorem getV_powerOn (p : Params) (d : Nat) (r : Reg) : (State.powerOn p d).getV r = 0 := by
  simp [State.getV]

theorem keyHeld_powerOn (p : Params) (d : Nat) (k : Key) : (State.powerOn p d).keyHeld k = false := by
  simp [State.keyHeld]

theorem Memory.read_cleared (font : List Byte) (a : Nat) : (Memory.cleared font).read a = (font[a]?).getD 0 := by
  rw [Memory.cleared, Memory.read_writeSlice, if_pos (Nat.zero_le a), Nat.sub_zero]
  rfl

/-- Settles O49: each piece of the power-on state, and the reset state as such a state. -/
theorem restartRestoresPowerOnState : Obligations.RestartRestoresPowerOnState := by
  refine ⟨fun s => ⟨State.powerOn s.params s.draws, rfl, rfl, getV_powerOn s.params s.draws, rfl, rfl, rfl,
    fun k => ?stack, rfl, rfl, Framebuffer.get_blank, rfl, keyHeld_powerOn s.params s.draws, rfl,
    Memory.read_cleared s.params.fontImage, rfl, rfl⟩, rfl, rfl⟩
  simp

theorem load_fits {s : State} {bytes : List Byte} (h : s.params.loadAddr + bytes.length ≤ s.params.memSize) :
    s.load bytes = (s.setMem (s.mem.writeSlice s.params.loadAddr bytes), .done) := if_neg (by omega)

theorem load_refused {s : State} {bytes : List Byte} (h : s.params.memSize < s.params.loadAddr + bytes.length) :
    s.load bytes = (s, .refused (.imageDoesNotFit bytes.length)) := if_pos h

theorem frame_setMem (s : State) (m : Memory) : Frame s (s.setMem m) [] [.mem] :=
  ⟨fun r _ => State.getV_setMem s m r, fun p hp => by cases p <;> simp_all [State.AgreesOn]⟩

/-- Settles O50: a slice write at `LOAD_ADDR`, or the refusal. -/
theorem loadCopiesImage : Obligations.LoadCopiesImage := by
  refine fun s bytes => ⟨fun hfits => ?fits, load_refused⟩
  refine ⟨_, load_fits hfits, rfl, frame_setMem s _, fun k hk => ?inside, fun a ha => ?outside⟩
  case inside =>
    rw [State.setMem_mem, Memory.read_writeSlice, if_pos (Nat.le_add_right ..), Nat.add_sub_cancel_left,
      List.getElem?_eq_getElem hk, Option.getD_some]
  case outside =>
    rw [State.setMem_mem, Memory.read_writeSlice]
    split
    · rw [List.getElem?_eq_none (by omega), Option.getD_none]
    · rfl

end Sys2Proof.Machine
end

section
/-! The fetch and the instruction cycle (30_encoding.md section 5, 60_exceptions.md sections 1 and 2). -/

namespace Sys2Proof.Machine

theorem toNat_wordOfBytes (hi lo : Byte) : (wordOfBytes hi lo).toNat = hi.toNat * 256 + lo.toNat := by
  rw [wordOfBytes, BitVec.toNat_append, ← Nat.shiftLeft_add_eq_or_of_lt lo.isLt, Nat.shiftLeft_eq]

theorem inspectFetch_ok {s : State} {w : Word} (h : s.fetch = .ok w) : s.inspectFetch = some w := by
  rw [State.inspectFetch, h]

theorem inspectFetch_error {s : State} {a : Nat} (h : s.fetch = .error a) : s.inspectFetch = none := by
  rw [State.inspectFetch, h]

theorem operate_fetch (s : State) : operate .fetch s = (s, .word s.inspectFetch) := rfl

/-- Settles O9: by whether both bytes at `pc` are in memory. -/
theorem inspectionFetchIsBigEndian : Obligations.InspectionFetchIsBigEndian := by
  refine fun s => ⟨fun hin => ⟨_, ?word, toNat_wordOfBytes _ _⟩, fun hout => ?noWord⟩
  case word => rw [operate_fetch, inspectFetch_ok (State.fetch_ok hin)]
  case noWord => rw [operate_fetch, inspectFetch_error (State.fetch_error hout)]

/-- Settles O7: the fetch gives the word, and a legal word is executed with `CHANGES` cleared. -/
theorem stepRunsDecodedInstruction : Obligations.StepRunsDecodedInstruction := by
  intro s i _ hfault hin hdecode
  have hclear : (s.setChanges none).fault = none := hfault
  rw [step_fetched hfault (State.fetch_ok hin), execute_legal hclear hdecode]
  rfl

/-- Settles O8: the first failing address is `pc` itself or the one after it. -/
theorem fetchOutOfBoundsIsRecorded : Obligations.FetchOutOfBoundsIsRecorded := by
  intro s hfault hout
  have haddr : max s.pc.toNat s.params.memSize =
      if s.params.memSize ≤ s.pc.toNat then s.pc.toNat else s.pc.toNat + 1 := by
    split <;> omega
  rw [step_unfetched hfault (State.fetch_error hout), haddr]
  rfl

/-- Settles O10: a step that fetched the word executes it with `CHANGES` cleared. -/
theorem illegalWordIsRecorded : Obligations.IllegalWordIsRecorded := by
  intro s w hfault hdecode
  refine ⟨execute_illegal hfault hdecode, fun hfetch => ?_⟩
  exact (step_fetched hfault hfetch).trans (execute_illegal (s := s.setChanges none) hfault hdecode)

/-- `FAULT` takes no part in a load. -/
theorem load_withFault (s : State) (g : Option FaultRecord) (bytes : List Byte) :
    State.load { s with fault := g } bytes =
      ({ (s.load bytes).1 with fault := g }, (s.load bytes).2) := by
  rcases Nat.lt_or_ge s.params.memSize (s.params.loadAddr + bytes.length) with hbig | hfits
  · rw [load_refused hbig]
    exact load_refused (s := { s with fault := g }) hbig
  · rw [load_fits hfits]
    exact load_fits (s := { s with fault := g }) hfits

/-- `FAULT` takes no part in setting a key. -/
theorem setKeyCode_withFault (s : State) (g : Option FaultRecord) (code : Nat) (held : Bool) :
    State.setKeyCode { s with fault := g } code held =
      ({ (s.setKeyCode code held).1 with fault := g }, (s.setKeyCode code held).2) := by
  rcases Nat.lt_or_ge code 16 with hkey | hbig
  · rw [setKeyCode_key s ⟨code, hkey⟩]
    exact setKeyCode_key { s with fault := g } ⟨code, hkey⟩ held
  · rw [setKeyCode_refused s held hbig]
    exact setKeyCode_refused { s with fault := g } held hbig

/-- An operation that neither runs the core, restarts it nor reads `FAULT` does and answers the same for any
`FAULT`, and keeps it (60_exceptions.md R244). -/
theorem operate_withFault {op : Operation} (s : State) (g : Option FaultRecord) (hnew : op ≠ .new)
    (hreset : op ≠ .reset) (htick : op ≠ .tick) (hread : op ≠ .readFault) (hexec : ∀ w, op ≠ .execute w) :
    operate op { s with fault := g } = ({ (operate op s).1 with fault := g }, (operate op s).2) := by
  cases op with
  | new => exact absurd rfl hnew
  | reset => exact absurd rfl hreset
  | tick => exact absurd rfl htick
  | readFault => exact absurd rfl hread
  | execute w => exact absurd rfl (hexec w)
  | fetch | getBuffer | getChanges | isPressed | getPressed => rfl
  | updateTimers | clearChanges => rfl
  | load bytes => exact load_withFault s g bytes
  | setKey code => exact setKeyCode_withFault s g code true
  | unsetKey code => exact setKeyCode_withFault s g code false

/-- Settles O11: `s` is the state without the fault with the record put back. -/
theorem faultedCoreObeysHostOnly : Obligations.FaultedCoreObeysHostOnly := by
  intro s f hf
  have hsome : s.fault.isSome = true := by rw [hf, Option.isSome_some]
  have hself : { s with fault := some f } = s := by rw [← hf]
  refine ⟨step_faulted hsome, fun w => execute_faulted hsome, ?_, by rw [← hf]; rfl, rfl, rfl⟩
  intro op hnew hreset htick hread hexec
  have h := operate_withFault { s with fault := none } (some f) hnew hreset htick hread hexec
  simp only [hself] at h
  exact Prod.ext_iff.1 h

end Sys2Proof.Machine
end

section
/-! Every instruction, said once: when its fault condition holds it takes a fault and changes nothing else; when it
does not, the instruction completes, which is what `Completes` says. The whole-machine statements follow from
these two theorems, `exec_faults` and `exec_completes`, and from their inversion `exec_next_cases`. -/

namespace Sys2Proof.Machine

/-- What an instruction that takes no fault may change: its destinations, memory by one slice from `I` of bytes it
may write, and the stack by the entry it pushes. -/
structure Completes (i : Instr) (s t : State) : Prop where
  fault : t.fault = s.fault
  draws : s.draws ≤ t.draws
  frame : Frame s t (destRegs i) (destPieces i)
  stack : ∀ k : Fin 16, ¬PushesTo s i k → t.stack[k] = s.stack[k]
  mem : ∃ bytes : List Byte, t.mem = s.mem.writeSlice (dataAddress s) bytes ∧
    ∀ k, k < bytes.length → StoresTo s i (dataAddress s + k) ∧ MayWrite s (dataAddress s + k)

/-! The forms of next state that instructions share. -/

/-- An instruction that stores nothing and pushes nothing completes by its frame. -/
theorem Completes.of_frame {i : Instr} {s t : State} (hframe : Frame s t (destRegs i) (destPieces i))
    (hfault : t.fault = s.fault) (hdraws : s.draws ≤ t.draws) (hstack : t.stack = s.stack)
    (hmem : t.mem = s.mem) : Completes i s t where
  fault := hfault
  draws := hdraws
  frame := hframe
  stack k _ := by rw [hstack]
  mem := ⟨[], hmem, fun k hk => absurd hk (Nat.not_lt_zero k)⟩

theorem completes_skipIf {i : Instr} (s : State) (c : Bool) : Completes i s (s.skipIf c) :=
  .of_frame ((frame_skipIf s c).mono (by simp) (by simp)) (State.skipIf_fault s c)
    (State.skipIf_draws s c).ge (State.skipIf_stack s c) (State.skipIf_mem s c)

theorem exec_storeFrom_completes {i : Instr} {bytes : List Byte} {s : State}
    (hi : exec i s = storeFrom i bytes s) (hpiece : Piece.mem ∈ destPieces i)
    (hstores : ∀ k, k < bytes.length → StoresTo s i (dataAddress s + k))
    (hmay : ∀ k, k < bytes.length → MayWrite s (dataAddress s + k)) :
    ∃ t, exec i s = .next t ∧ Completes i s t :=
  ⟨_, hi.trans (storeFrom_ok fun k hk => (mayWrite_iff s _).1 (hmay k hk)),
    { fault := rfl
      draws := le_rfl
      frame := (frame_setMem_advance s _ 2).mono (by simp) (by simpa using hpiece)
      stack := fun _ _ => rfl
      mem := ⟨bytes, rfl, fun k hk => ⟨hstores k hk, hmay k hk⟩⟩ }⟩

/-- Without its fault condition, an instruction completes. -/
theorem exec_completes {i : Instr} {s : State} (h : ¬FaultCondition s i) :
    ∃ t, exec i s = .next t ∧ Completes i s t := by
  cases i with
  | ldByte x kk | addByte x kk | ldReg x y | orReg x y | andReg x y | xorReg x y | ldVxDt x =>
    exact ⟨_, rfl, .of_frame (frame_writeResult s x _) rfl le_rfl rfl rfl⟩
  | addReg x y | subReg x y | shr x y | subn x y | shl x y =>
    exact ⟨_, rfl, .of_frame (frame_writeFlagged s x _ _) rfl le_rfl rfl rfl⟩
  | seByte x kk | sneByte x kk | seReg x y | sneReg x y => exact ⟨_, rfl, completes_skipIf s _⟩
  | jp nnn | jpV0 nnn => exact ⟨_, rfl, .of_frame (frame_goto s _) rfl le_rfl rfl rfl⟩
  | ldI nnn | addI x | ldF x => exact ⟨_, rfl, .of_frame (frame_setI_advance s _ 2) rfl le_rfl rfl rfl⟩
  | ldDtVx x => exact ⟨_, rfl, .of_frame (frame_setDt_advance s _ 2) rfl le_rfl rfl rfl⟩
  | ldStVx x => exact ⟨_, rfl, .of_frame (frame_setSt_advance s _ 2) rfl le_rfl rfl rfl⟩
  | rnd x kk => exact ⟨_, rfl, .of_frame (frame_rndWith _ x kk s) rfl (Nat.le_succ _) rfl rfl⟩
  | cls =>
    obtain ⟨t, ht, -, -, -, hframe⟩ := clearDisplayZeroesPixels s
    cases ht
    exact ⟨_, rfl, .of_frame hframe rfl le_rfl rfl rfl⟩
  | ret =>
    have hsp : 0 < s.sp.val := Nat.pos_of_ne_zero h
    obtain ⟨t, ht, -, -, hframe⟩ := (returnPopsPc s).1 hsp
    cases (exec_ret_occupied hsp).symm.trans ht
    exact ⟨_, ht, .of_frame (hframe.mono (by simp) (by simp [destPieces])) rfl le_rfl rfl rfl⟩
  | call nnn =>
    have hsp : s.sp.val < 16 := Nat.lt_of_le_of_ne (Nat.le_of_lt_succ s.sp.isLt) h
    obtain ⟨t, ht, -, -, hstack, hframe⟩ := (callPushesReturnAddress s nnn).1 hsp
    cases (exec_call_free nnn hsp).symm.trans ht
    exact ⟨_, ht,
      { fault := rfl
        draws := le_rfl
        frame := hframe.mono (by simp) (by simp [destPieces])
        stack := fun k hk => (hstack k).trans (if_neg hk)
        mem := ⟨[], rfl, fun k hk => absurd hk (Nat.not_lt_zero k)⟩ }⟩
  | drw x y n =>
    have hin : n.toNat = 0 ∨ dataAddress s + n.toNat ≤ s.params.memSize := by
      simp only [FaultCondition] at h
      omega
    obtain ⟨f, hit, ht, -⟩ := exec_drw_next (x := x) (y := y) hin
    have hframe := (frame_draw s f (some (.sprite (s.getV x) (s.getV y) n)) (flagByte hit) 2).mono
      (rs' := destRegs (.drw x y n)) (ps' := destPieces (.drw x y n)) (by simp [destRegs]) (by simp [destPieces])
    exact ⟨_, ht, .of_frame hframe rfl le_rfl rfl rfl⟩
  | skp x =>
    have hkey : (s.getV x).toNat < 16 := Nat.lt_succ_of_le (Nat.le_of_not_lt h)
    exact ⟨_, exec_skp_key (k := ⟨_, hkey⟩) rfl, completes_skipIf s _⟩
  | sknp x =>
    have hkey : (s.getV x).toNat < 16 := Nat.lt_succ_of_le (Nat.le_of_not_lt h)
    exact ⟨_, exec_sknp_key (k := ⟨_, hkey⟩) rfl, completes_skipIf s _⟩
  | ldVxK x =>
    cases hk : s.getPressed with
    | some k => exact ⟨_, exec_ldVxK_held x hk, .of_frame (frame_writeResult s x _) rfl le_rfl rfl rfl⟩
    | none => exact ⟨s, exec_ldVxK_waiting x hk, .of_frame (Frame.refl s _ _) rfl le_rfl rfl rfl⟩
  | ldB x =>
    simp only [FaultCondition, not_exists, not_and, not_not] at h
    refine exec_storeFrom_completes (exec_ldB x s) (by simp [destPieces]) (fun k hk => ?_) h
    exact ⟨Nat.le_add_right .., Nat.add_le_add_left (Nat.le_of_lt_succ hk) _⟩
  | ldMemVx x =>
    simp only [FaultCondition, not_exists, not_and, not_not] at h
    have hle {k : Nat} (hk : k < ((regsUpTo x).map s.getV).length) : k ≤ x.val := by
      rw [length_storedRegs] at hk
      exact Nat.le_of_lt_succ hk
    refine exec_storeFrom_completes (exec_ldMemVx x s) (by simp [destPieces]) (fun k hk => ?_)
      fun k hk => h k (hle hk)
    exact ⟨Nat.le_add_right .., Nat.add_le_add_left (hle hk) _⟩
  | ldVxMem x =>
    have hin : dataAddress s + x.val < s.params.memSize := Nat.lt_of_not_le h
    obtain ⟨t, ht, -, -, hframe⟩ := (loadRegistersReadsRange s x).1 hin
    cases (exec_ldVxMem_ok hin).symm.trans ht
    refine ⟨_, ht, .of_frame (hframe.mono (fun _ => id) (by simp)) ?_ (Nat.le_of_eq ?_) ?_ ?_⟩ <;> simp

/-- Of the addresses from `a` that may not be written there is a lowest one. -/
theorem exists_lowest_not_mayWrite {s : State} {a n : Nat} (h : ∃ k, k < n ∧ ¬MayWrite s (a + k)) :
    ∃ k, k < n ∧ ¬MayWrite s (a + k) ∧ ∀ j, j < k → MayWrite s (a + j) := by
  classical
  have hbad : ∃ k, ¬MayWrite s (a + k) := h.imp fun _ hk => hk.2
  obtain ⟨k, hk, hk'⟩ := h
  exact ⟨Nat.find hbad, (Nat.find_min' hbad hk').trans_lt hk, Nat.find_spec hbad,
    fun j hj => not_not.1 (Nat.find_min hbad hj)⟩

/-- Under its fault condition, an instruction takes a fault. -/
theorem exec_faults {i : Instr} {s : State} (h : FaultCondition s i) : ∃ c info, FaultsWith i s c info := by
  cases i with
  | call nnn => exact ⟨_, _, (callPushesReturnAddress s nnn).2 h⟩
  | ret => exact ⟨_, _, (returnPopsPc s).2 h⟩
  | drw x y n => exact ⟨_, _, (drawXorsSpriteIntoDisplay s x y n).2 h.1 h.2⟩
  | skp x => exact ⟨_, _, ((keySkipsTestLatch s x).2 h).1⟩
  | sknp x => exact ⟨_, _, ((keySkipsTestLatch s x).2 h).2⟩
  | ldB x =>
    obtain ⟨k, hk, hbad, hlow⟩ := exists_lowest_not_mayWrite h
    exact ⟨_, _, (bcdStoresThreeDigits s x).2 k hk hbad hlow⟩
  | ldMemVx x =>
    obtain ⟨k, hk, hbad, hlow⟩ := exists_lowest_not_mayWrite (h.imp fun _ hk => hk.imp_left Nat.lt_succ_of_le)
    exact ⟨_, _, (storeRegistersWritesRange s x).2 k (Nat.le_of_lt_succ hk) hbad hlow⟩
  | ldVxMem x => exact ⟨_, _, (loadRegistersReadsRange s x).2 h⟩
  | _ => exact h.elim

/-- Whatever next state an instruction gives, it is one of the two. -/
theorem exec_next_cases {i : Instr} {s t : State} (h : exec i s = .next t) :
    (FaultCondition s i ∧ ∃ c info, t = s.raise c (some (encode i)) info) ∨
      (¬FaultCondition s i ∧ Completes i s t) := by
  by_cases hc : FaultCondition s i
  · obtain ⟨c, info, hf⟩ := exec_faults hc
    cases h.symm.trans hf
    exact .inl ⟨hc, c, info, rfl⟩
  · obtain ⟨t', ht', hcomp⟩ := exec_completes hc
    cases h.symm.trans ht'
    exact .inr ⟨hc, hcomp⟩

/-- Settles O13: the instruction faults or completes, by its fault condition. -/
theorem instructionsFaultExactlyWhen : Obligations.InstructionsFaultExactlyWhen := by
  intro i s hfault
  by_cases hc : FaultCondition s i
  · obtain ⟨c, info, hf⟩ := exec_faults hc
    exact ⟨_, hf, by simp [hc]⟩
  · obtain ⟨t, ht, hcomp⟩ := exec_completes hc
    exact ⟨t, ht, by simp [hc, hcomp.fault, hfault]⟩

/-- Settles O12: an instruction that completes records no fault. -/
theorem faultsArePrecise : Obligations.FaultsArePrecise := by
  intro i s t hfault ht hsome
  rcases exec_next_cases ht with ⟨-, c, info, rfl⟩ | ⟨-, hcomp⟩
  · exact ⟨c, info, rfl⟩
  · exact absurd (hcomp.fault.trans hfault) hsome

/-- An instruction with a fault condition may write `FAULT`. -/
theorem fault_mem_destPieces {i : Instr} {s : State} (h : FaultCondition s i) : Piece.fault ∈ destPieces i := by
  cases i with
  | call | ret | drw | skp | sknp | ldB | ldMemVx | ldVxMem => simp [destPieces]
  | _ => exact h.elim

/-- Settles O51: a fault writes `FAULT` alone, and an instruction that completes has its frame. -/
theorem instructionsWriteOnlyTheirDestinations : Obligations.InstructionsWriteOnlyTheirDestinations := by
  intro i s t ht
  rcases exec_next_cases ht with ⟨hc, c, info, rfl⟩ | ⟨-, hcomp⟩
  · exact ⟨(frame_raise s c _ info).mono (by simp) (by simpa using fault_mem_destPieces hc),
      fun _ _ => rfl, fun _ _ => rfl⟩
  · refine ⟨hcomp.frame, fun a ha => ?_, hcomp.stack⟩
    obtain ⟨bytes, hmem, hstores⟩ := hcomp.mem
    rw [hmem, Memory.read_writeSlice]
    split
    case isFalse => rfl
    case isTrue hle =>
      have hlen : bytes.length ≤ a - dataAddress s := by
        by_contra hlt
        exact ha (Nat.add_sub_cancel' hle ▸ (hstores (a - dataAddress s) (Nat.lt_of_not_le hlt)).1)
      rw [List.getElem?_eq_none hlen, Option.getD_none]

theorem params_not_mem_destPieces (i : Instr) : Piece.params ∉ destPieces i := by
  cases i <;> simp [destPieces]

end Sys2Proof.Machine
end

section
/-! The canonical form of memory as data (log 12): the cells of a canonical memory are the addresses it reads a
non-zero byte at, in rising order, so its reads determine it. -/

namespace Sys2Proof.Machine

theorem Memory.mem_iff_read {m : Memory} (h : m.wf) (c : Host.Cell) :
    c ∈ m ↔ m.read c.1 = c.2 ∧ c.2 ≠ unlisted := by
  refine ⟨fun hc => ⟨read_of_mem h hc, h.2 c hc⟩, fun ⟨hread, hne⟩ => ?_⟩
  by_contra hc
  refine hne (hread.symm.trans (read_of_not_mem fun d hd haddr => hc ?_))
  have hcell : c = d := Prod.ext haddr.symm (by rw [← hread, ← haddr, read_of_mem h hd])
  exact hcell ▸ hd

/-- Settles O54: two lists in strictly rising order of address with the same cells are the same. -/
theorem canonicalMemoriesAreExtensional : Obligations.CanonicalMemoriesAreExtensional := by
  intro m k hm hk hread
  have hcells : ∀ c, c ∈ m ↔ c ∈ k := fun c => by
    rw [Memory.mem_iff_read hm, Memory.mem_iff_read hk, hread]
  have hperm : m.Perm k := (List.perm_ext_iff_of_nodup
    (hm.1.imp fun hlt => fun e => absurd hlt (e ▸ lt_irrefl _))
    (hk.1.imp fun hlt => fun e => absurd hlt (e ▸ lt_irrefl _))).2 hcells
  exact hperm.eq_of_pairwise (fun c d _ _ hcd hdc => absurd hcd (lt_asymm hdc)) hm.1 hk.1

end Sys2Proof.Machine
end

section
/-! What every step and every operation of the host keeps: the parameters, the counter of random bytes from going
down, and the invariant. `Keeps` says the three at once and is transitive, so that a run keeps what each of its
operations keeps. -/

namespace Sys2Proof.Machine

/-- From `s` to `t` the parameters stay, no random byte is given back, and the invariant is kept. -/
structure Keeps (s t : State) : Prop where
  params : t.params = s.params
  draws : s.draws ≤ t.draws
  inv : s.Inv → t.Inv

theorem Keeps.trans {s t u : State} (h1 : Keeps s t) (h2 : Keeps t u) : Keeps s u where
  params := h2.params.trans h1.params
  draws := h1.draws.trans h2.draws
  inv h := h2.inv (h1.inv h)

/-- A slice of bytes in memory keeps the invariant. -/
theorem State.Inv.of_writeSlice {s t : State} (h : s.Inv) (hparams : t.params = s.params) {a : Nat}
    {bytes : List Byte} (hmem : t.mem = s.mem.writeSlice a bytes)
    (hin : bytes = [] ∨ a + bytes.length ≤ s.params.memSize) : t.Inv := by
  obtain ⟨hwf, hcanon, hbound⟩ := h
  refine ⟨hparams ▸ hwf, hmem ▸ Memory.wf_writeSlice hcanon a bytes, ?_⟩
  rw [hparams, hmem]
  rcases hin with rfl | hin
  · exact hbound
  · exact Memory.bounded_writeSlice hbound hin

/-- A change that is none of the parameters and memory keeps the invariant. -/
theorem Keeps.of_mem {s t : State} (hparams : t.params = s.params) (hmem : t.mem = s.mem)
    (hdraws : s.draws ≤ t.draws) : Keeps s t where
  params := hparams
  draws := hdraws
  inv h := h.of_writeSlice (a := 0) (bytes := []) hparams hmem (.inl rfl)

theorem Keeps.refl (s : State) : Keeps s s := .of_mem rfl rfl le_rfl

theorem keeps_raise (s : State) (c : FaultCause) (w : Option Word) (info : Nat) : Keeps s (s.raise c w info) :=
  .of_mem rfl rfl le_rfl

theorem Completes.keeps {i : Instr} {s t : State} (h : Completes i s t) : Keeps s t := by
  have hparams : t.params = s.params := h.frame.2 .params (params_not_mem_destPieces i)
  obtain ⟨bytes, hmem, hbytes⟩ := h.mem
  refine ⟨hparams, h.draws, fun hinv => hinv.of_writeSlice hparams hmem ?_⟩
  cases bytes with
  | nil => exact .inl rfl
  | cons b bs => exact .inr (hbytes bs.length (Nat.lt_succ_self _)).2.1

/-- An instruction gives a next state, and it keeps the invariant. -/
theorem exec_keeps (i : Instr) (s : State) : ∃ t, exec i s = .next t ∧ Keeps s t := by
  by_cases hc : FaultCondition s i
  · obtain ⟨c, info, hf⟩ := exec_faults hc
    exact ⟨_, hf, keeps_raise s c (some (encode i)) info⟩
  · obtain ⟨t, ht, hcomp⟩ := exec_completes hc
    exact ⟨t, ht, hcomp.keeps⟩

/-- So does `EXECUTE`, by the three cases of R85. -/
theorem execute_keeps (w : Word) (s : State) : ∃ t, execute w s = .next t ∧ Keeps s t := by
  cases hf : s.fault with
  | some f => exact ⟨s, execute_faulted (by rw [hf, Option.isSome_some]), .refl s⟩
  | none =>
    cases hd : decode w with
    | none => exact ⟨_, execute_illegal hf hd, keeps_raise s _ _ _⟩
    | some i => rw [execute_legal hf hd]; exact exec_keeps i s

theorem keeps_setChanges (s : State) (d : Option Damage) : Keeps s (s.setChanges d) := .of_mem rfl rfl le_rfl

/-- So does a step, by the cases of R86. -/
theorem step_keeps (s : State) : ∃ t, step s = .next t ∧ Keeps s t := by
  have hclear := keeps_setChanges s none
  rcases step_cases s with ⟨-, ht⟩ | ⟨-, a, -, ht⟩ | ⟨-, w, -, -, ht⟩ | ⟨-, w, i, -, -, ht⟩
  · exact ⟨s, ht, .refl s⟩
  · exact ⟨_, ht, hclear.trans (keeps_raise _ _ _ _)⟩
  · exact ⟨_, ht, hclear.trans (keeps_raise _ _ _ _)⟩
  · obtain ⟨t, ht', hkeeps⟩ := exec_keeps i (s.setChanges none)
    exact ⟨t, ht.trans ht', hclear.trans hkeeps⟩

/-- Settles O14: a step's next state, which on a faulted core is the state itself. -/
theorem everyStepAnswersNext : Obligations.EveryStepAnswersNext := by
  intro s
  obtain ⟨t, ht, hkeeps⟩ := step_keeps s
  refine ⟨t, ht, fun hfault => ?_, hkeeps.params⟩
  cases ht.symm.trans (step_faulted (Option.isSome_iff_ne_none.2 hfault))
  rfl

/-- Settles O56: the next state is the one the step gives. -/
theorem stepKeepsInvariant : Obligations.StepKeepsInvariant := by
  intro s t hinv ht
  obtain ⟨t', ht', hkeeps⟩ := step_keeps s
  cases ht.symm.trans ht'
  exact hkeeps.inv hinv

theorem inv_powerOn {p : Params} (h : p.WellFormed) (d : Nat) : (State.powerOn p d).Inv where
  params_wf := h
  mem_wf := Memory.wf_cleared p.fontImage
  mem_bounded := by
    obtain ⟨hload, -, hfont⟩ := h
    refine Memory.bounded_writeSlice (m := []) (by simp) ?_
    rw [State.powerOn_params]
    omega

/-- Settles O55: both are power-on states with well-formed parameters. -/
theorem restartMeetsInvariant : Obligations.RestartMeetsInvariant :=
  ⟨inv_powerOn (by decide) 0, fun s h => inv_powerOn h s.draws⟩

theorem keeps_restart (s : State) : Keeps s s.restart :=
  ⟨rfl, le_rfl, fun h => inv_powerOn h.params_wf s.draws⟩

theorem keeps_load (s : State) (bytes : List Byte) : Keeps s (s.load bytes).1 := by
  rcases Nat.lt_or_ge s.params.memSize (s.params.loadAddr + bytes.length) with hbig | hfits
  · rw [load_refused hbig]
    exact .refl s
  · rw [load_fits hfits]
    exact ⟨rfl, le_rfl, fun h => h.of_writeSlice rfl rfl (.inr hfits)⟩

theorem keeps_setKeyCode (s : State) (code : Nat) (held : Bool) : Keeps s (s.setKeyCode code held).1 := by
  rcases Nat.lt_or_ge code 16 with hkey | hbig
  · rw [setKeyCode_key s ⟨code, hkey⟩]
    exact .of_mem rfl rfl le_rfl
  · rw [setKeyCode_refused s held hbig]
    exact .refl s

theorem ofOutcome_keeps {s : State} {o : StepOutcome} (h : ∃ t, o = .next t ∧ Keeps s t) :
    Keeps s (s.ofOutcome o).1 := by
  obtain ⟨t, rfl, hkeeps⟩ := h
  exact hkeeps

/-- Every operation of the host keeps the invariant. -/
theorem operate_keeps (op : Operation) (s : State) : Keeps s (operate op s).1 := by
  cases op with
  | new | reset => exact keeps_restart s
  | load bytes => exact keeps_load s bytes
  | tick => exact ofOutcome_keeps (step_keeps s)
  | execute w => exact ofOutcome_keeps (execute_keeps w s)
  | updateTimers | clearChanges => exact .of_mem rfl rfl le_rfl
  | setKey code => exact keeps_setKeyCode s code true
  | unsetKey code => exact keeps_setKeyCode s code false
  | fetch | getBuffer | getChanges | isPressed | getPressed | readFault => exact .refl s

theorem runOperations_keeps (s : State) (ops : List Operation) : Keeps s (runOperations s ops) := by
  induction ops generalizing s with
  | nil => exact .refl s
  | cons op ops ih => exact (operate_keeps op s).trans (ih (operate op s).1)

/-- Settles O57: a run keeps what each of its operations keeps. -/
theorem everyRunKeepsInvariant : Obligations.EveryRunKeepsInvariant := by
  intro s ops hinv
  have hkeeps := runOperations_keeps s ops
  exact ⟨hkeeps.inv hinv, hkeeps.params, hkeeps.draws⟩

end Sys2Proof.Machine
end

section
/-! What no instruction observes: `CHANGES`, `ST` (10_state.md sections 4 and 5) and the stack entries at and above
`SP` (section 3). `Hidden` gathers values for these; `exec_withHidden` says that an instruction run with other hidden
values gives the same next state but for hidden values, and both statements are read off it. -/

namespace Sys2Proof.Machine

/-- Values for the pieces of state that no instruction reads, or reads below `SP` alone. -/
structure Hidden where
  changes : Option Damage
  st : Byte
  stack : Vector Word 16

/-- The state with other hidden values. -/
def State.withHidden (s : State) (h : Hidden) : State :=
  { s with changes := h.changes, st := h.st, stack := h.stack }

/-- The hidden stack has the state's own entries below `SP`. -/
def Hidden.LiveIn (h : Hidden) (s : State) : Prop := ∀ k : Fin 16, k.val < s.sp.val → h.stack[k] = s.stack[k]

/-- From `s` to `t`, hidden values `h` become `h'`: live entries stay live, and a piece that was the state's own is
still its own. -/
structure Hidden.Follows (h h' : Hidden) (s t : State) : Prop where
  live : h.LiveIn s → h'.LiveIn t
  changes : h.changes = s.changes → h'.changes = t.changes
  st : h.st = s.st → h'.st = t.st
  stack : h.stack = s.stack → h'.stack = t.stack

/-- A state with the same `SP` and the same hidden pieces is followed by the same values. -/
theorem Hidden.follows_self {h : Hidden} {s t : State} (hsp : t.sp = s.sp) (hchanges : t.changes = s.changes)
    (hst : t.st = s.st) (hstack : t.stack = s.stack) : h.Follows h s t where
  live hl := by rwa [LiveIn, hsp, hstack]
  changes e := e.trans hchanges.symm
  st e := e.trans hst.symm
  stack e := e.trans hstack.symm

/-- Run from `s` with hidden values `h`, instruction `i` gives `t` but for hidden values, which follow `h`. -/
abbrev GivesUpToHidden (i : Instr) (s t : State) (h : Hidden) : Prop :=
  ∃ h', exec i (s.withHidden h) = .next (t.withHidden h') ∧ h.Follows h' s t

/-- An instruction whose next state has the hidden values of the state before. -/
theorem exec_keeps_hidden {i : Instr} {s t : State} {h : Hidden}
    (he : exec i (s.withHidden h) = .next (t.withHidden h)) (hsp : t.sp = s.sp)
    (hchanges : t.changes = s.changes) (hst : t.st = s.st) (hstack : t.stack = s.stack) :
    GivesUpToHidden i s t h :=
  ⟨h, he, Hidden.follows_self hsp hchanges hst hstack⟩

/-! The operations with a branch or a recursion, which do not commute with `withHidden` by unfolding alone. -/

theorem skipIf_withHidden (s : State) (h : Hidden) (c : Bool) :
    (s.withHidden h).skipIf c = (s.skipIf c).withHidden h := by
  cases c <;> rfl

theorem setVs_withHidden (s : State) (h : Hidden) (l : List (Reg × Byte)) :
    (s.withHidden h).setVs l = (s.setVs l).withHidden h := by
  induction l generalizing s with
  | nil => rfl
  | cons p l ih => exact ih (s.setV p.1 p.2)

theorem exec_skip_withHidden {i : Instr} {s t : State} {h : Hidden} {c : Bool} (ht : exec i s = .next t)
    (hs : exec i s = .next (s.skipIf c)) (hh : exec i (s.withHidden h) = .next ((s.withHidden h).skipIf c)) :
    GivesUpToHidden i s t h := by
  cases ht.symm.trans hs
  exact exec_keeps_hidden (hh.trans (congrArg _ (skipIf_withHidden s h c))) (by simp) (by simp) (by simp) (by simp)

theorem exec_fault_withHidden {i : Instr} {s t : State} {h : Hidden} {c : FaultCause} {info : Nat}
    (ht : exec i s = .next t) (hs : exec i s = faultIn i c info s)
    (hh : exec i (s.withHidden h) = faultIn i c info (s.withHidden h)) :
    GivesUpToHidden i s t h := by
  cases ht.symm.trans hs
  exact exec_keeps_hidden hh rfl rfl rfl rfl

/-- The two key skips, for what each tests of the key's latch. -/
theorem exec_keySkip_withHidden {i : Instr} {x : Reg} {test : Bool → Bool} {s t : State} {h : Hidden}
    (hkey : ∀ (u : State) (k : Key), (u.getV x).toNat = k.val → exec i u = .next (u.skipIf (test (u.keyHeld k))))
    (hnoKey : ∀ u : State, 15 < (u.getV x).toNat → exec i u = faultIn i .keyOutOfRange (u.getV x).toNat u)
    (ht : exec i s = .next t) :
    GivesUpToHidden i s t h := by
  rcases Nat.lt_or_ge (s.getV x).toNat 16 with hlt | hge
  · exact exec_skip_withHidden ht (hkey s ⟨_, hlt⟩ rfl) (hkey (s.withHidden h) ⟨_, hlt⟩ rfl)
  · exact exec_fault_withHidden ht (hnoKey s hge) (hnoKey (s.withHidden h) hge)

theorem exec_store_withHidden {i : Instr} {s t : State} {h : Hidden} {bytes : List Byte} (ht : exec i s = .next t)
    (hs : exec i s = storeFrom i bytes s)
    (hh : exec i (s.withHidden h) = storeFrom i bytes (s.withHidden h)) :
    GivesUpToHidden i s t h := by
  rcases State.memWrites_cases s (dataAddress s) bytes with hw | ⟨k, hk, hbad, hlow⟩
  · cases ht.symm.trans (hs.trans (storeFrom_ok hw))
    exact exec_keeps_hidden (hh.trans (storeFrom_ok (s := s.withHidden h) hw)) rfl rfl rfl rfl
  · exact exec_fault_withHidden ht (hs.trans (storeFrom_error hk hbad hlow))
      (hh.trans (storeFrom_error (s := s.withHidden h) hk hbad hlow))

theorem exec_call_withHidden {nnn : Addr12} {s t : State} {h : Hidden} (ht : exec (.call nnn) s = .next t) :
    GivesUpToHidden (.call nnn) s t h := by
  rcases Nat.lt_or_ge s.sp.val 16 with hfree | hge
  · cases ht.symm.trans (exec_call_free nnn hfree)
    refine ⟨{ h with stack := h.stack.set s.sp.val (s.pc + 2) hfree },
      exec_call_free (s := s.withHidden h) nnn hfree,
      { live := fun hl k hk => ?live
        changes := id
        st := id
        stack := fun e => by simp only [State.goto_stack, e] }⟩
    case live =>
      simp only [State.goto_stack, Fin.getElem_fin, Vector.getElem_set]
      split
      case isTrue => rfl
      case isFalse hne => exact hl k (Nat.lt_of_le_of_ne (Nat.le_of_lt_succ hk) (Ne.symm hne))
  · have hfull : s.sp.val = 16 := by omega
    exact exec_fault_withHidden ht (exec_call_full nnn hfull) (exec_call_full (s := s.withHidden h) nnn hfull)

theorem exec_ret_withHidden {s t : State} {h : Hidden} (hl : h.LiveIn s) (ht : exec .ret s = .next t) :
    GivesUpToHidden .ret s t h := by
  rcases Nat.eq_zero_or_pos s.sp.val with hzero | hpos
  · exact exec_fault_withHidden ht (exec_ret_empty hzero) (exec_ret_empty (s := s.withHidden h) hzero)
  · cases ht.symm.trans (exec_ret_occupied hpos)
    refine ⟨h, (exec_ret_occupied (s := s.withHidden h) hpos).trans ?_,
      { live := fun hl k hk => hl k (Nat.lt_of_lt_of_le hk (Nat.sub_le _ 1))
        changes := id
        st := id
        stack := id }⟩
    have hlt : s.sp.val - 1 < 16 := by omega
    have htop : h.stack[s.sp.val - 1] = s.stack[s.sp.val - 1] :=
      hl ⟨s.sp.val - 1, hlt⟩ (Nat.sub_lt hpos Nat.one_pos)
    exact congrArg (fun a => Host.Outcome.next (State.goto _ a)) htop

theorem exec_drw_withHidden {x y : Reg} {n : Nibble} {s t : State} {h : Hidden}
    (ht : exec (.drw x y n) s = .next t) :
    GivesUpToHidden (.drw x y n) s t h := by
  by_cases hin : n.toNat = 0 ∨ dataAddress s + n.toNat ≤ s.params.memSize
  · cases ht.symm.trans (exec_drw_ok hin)
    refine ⟨{ h with changes := _ }, exec_drw_ok (s := s.withHidden h) hin,
      { live := id, changes := fun _ => rfl, st := id, stack := id }⟩
  · have hn : 0 < n.toNat := by omega
    have hout : s.params.memSize < dataAddress s + n.toNat := by omega
    exact exec_fault_withHidden ht (exec_drw_error hn hout) (exec_drw_error (s := s.withHidden h) hn hout)

theorem exec_ldVxMem_withHidden {x : Reg} {s t : State} {h : Hidden} (ht : exec (.ldVxMem x) s = .next t) :
    GivesUpToHidden (.ldVxMem x) s t h := by
  rcases Nat.lt_or_ge (dataAddress s + x.val) s.params.memSize with hin | hout
  · cases ht.symm.trans (exec_ldVxMem_ok hin)
    refine exec_keeps_hidden ((exec_ldVxMem_ok (s := s.withHidden h) hin).trans ?_)
      (by simp) (by simp) (by simp) (by simp)
    exact congrArg (fun u => Host.Outcome.next (State.advance u 2)) (setVs_withHidden s h _)
  · exact exec_fault_withHidden ht (exec_ldVxMem_error hout) (exec_ldVxMem_error (s := s.withHidden h) hout)

/-- An instruction run with other hidden values gives the same next state but for hidden values. -/
theorem exec_withHidden {i : Instr} {s t : State} {h : Hidden} (hl : h.LiveIn s) (ht : exec i s = .next t) :
    GivesUpToHidden i s t h := by
  cases i with
  | ldByte | addByte | ldReg | orReg | andReg | xorReg | addReg | subReg | shr | subn | shl | rnd | ldVxDt | ldDtVx
  | jp | jpV0 | ldI | addI | ldF =>
    cases ht
    exact exec_keeps_hidden rfl rfl rfl rfl rfl
  | seByte | sneByte | seReg | sneReg => exact exec_skip_withHidden ht rfl rfl
  | cls =>
    cases ht
    exact ⟨{ h with changes := some .cleared }, rfl, { live := id, changes := fun _ => rfl, st := id, stack := id }⟩
  | ldStVx x =>
    cases ht
    exact ⟨{ h with st := s.getV x }, rfl, { live := id, changes := id, st := fun _ => rfl, stack := id }⟩
  | call nnn => exact exec_call_withHidden ht
  | ret => exact exec_ret_withHidden hl ht
  | drw x y n => exact exec_drw_withHidden ht
  | ldB x => exact exec_store_withHidden ht (exec_ldB x s) (exec_ldB x (s.withHidden h))
  | ldMemVx x => exact exec_store_withHidden ht (exec_ldMemVx x s) (exec_ldMemVx x (s.withHidden h))
  | ldVxMem x => exact exec_ldVxMem_withHidden ht
  | skp x => exact exec_keySkip_withHidden (test := id) (fun _ _ => exec_skp_key) (fun _ => exec_skp_noKey) ht
  | sknp x => exact exec_keySkip_withHidden (test := not) (fun _ _ => exec_sknp_key) (fun _ => exec_sknp_noKey) ht
  | ldVxK x =>
    cases hk : s.getPressed with
    | some k =>
      cases ht.symm.trans (exec_ldVxK_held x hk)
      exact exec_keeps_hidden (exec_ldVxK_held (s := s.withHidden h) x hk) rfl rfl rfl rfl
    | none =>
      cases ht.symm.trans (exec_ldVxK_waiting x hk)
      exact exec_keeps_hidden (exec_ldVxK_waiting (s := s.withHidden h) x hk) rfl rfl rfl rfl

/-- Settles O52: the hidden stack is the state's own, so it stays so. -/
theorem noInstructionReadsChangesOrSt : Obligations.NoInstructionReadsChangesOrSt := by
  intro i s t c b ht
  obtain ⟨⟨c2, b2, k2⟩, hexec, hfollows⟩ := exec_withHidden (h := ⟨c, b, s.stack⟩) (fun _ _ => rfl) ht
  obtain rfl : k2 = t.stack := hfollows.stack rfl
  exact ⟨c2, b2, hexec⟩

/-- Settles O53: the hidden `CHANGES` and `ST` are the state's own, so they stay so. -/
theorem staleStackEntriesAreUnobservable : Obligations.StaleStackEntriesAreUnobservable := by
  intro i s t other hlive ht
  obtain ⟨⟨c2, b2, after⟩, hexec, hfollows⟩ := exec_withHidden (h := ⟨s.changes, s.st, other⟩) hlive ht
  obtain rfl : c2 = t.changes := hfollows.changes rfl
  obtain rfl : b2 = t.st := hfollows.st rfl
  exact ⟨after, hexec, hfollows.live hlive⟩

end Sys2Proof.Machine
end
